-- ==== Sys2Proof/Config.lean ====
section
/-! DEFINITION. What an implementation of the LZWD fixes (rule R7, decision D1) and the free values: constants with no
body, so that nothing in Lean can evaluate one or prove a value of it. -/

namespace Sys2Proof

/-! ## The model argument `MAXW` -/

/-- The values of `MAXW` (R7, U6): the largest read width in bits, the model's argument. A machine holds its value in
`State.maxw` and no step writes it (log 1). -/
inductive MaxWidth where
  /-- 12, what decision D1 takes. -/
  | twelve
  /-- 13, the other reading of the source (D1). -/
  | thirteen
deriving DecidableEq, Repr

/-- `MAXW` as a number (R7). -/
def MaxWidth.bits : MaxWidth → Nat
  | .twelve => 12
  | .thirteen => 13

/-- `DICT_SLOTS = 2^MAXW` (R7). -/
abbrev MaxWidth.slots (m : MaxWidth) : Nat := 2 ^ m.bits

/-- `CODE_BITS = MAXW + 1` (R7, D26): the width of the code-typed registers. -/
abbrev MaxWidth.codeBits (m : MaxWidth) : Nat := m.bits + 1

/-- The width of `BITBUF`, `MAXW + 7` (R20, R30). -/
abbrev MaxWidth.bufBits (m : MaxWidth) : Nat := m.bits + 7

/-- The default of `MAXW` (R7, D1). -/
abbrev Config.defaultMaxw : MaxWidth := .twelve

/-- The room a code-typed register is held in: `CODE_BITS` of the larger `MAXW`. The register itself has
`MaxWidth.codeBits` bits: no more is ever written to it (log 1). -/
abbrev Config.codeRoom : Nat := 14

/-- The room `BITBUF` is held in: `MAXW + 7` of the larger `MAXW` (log 1). -/
abbrev Config.bufRoom : Nat := 20

/-! ## Free values -/

/-! The free values of a field that R38, R124 and R210 leave unspecified after DEINIT and after power-on (U7: "any
value"). Each is applied to the counter `freeCtr` of the state, and a register takes as many of its bits as it has (log 4). -/

/-- Unspecified `n` (R38, log 4). -/
opaque Config.freeN : Nat → BitVec 4
/-- Unspecified `codeSize` (R38, log 4). -/
opaque Config.freeCodeSize : Nat → BitVec 4
/-- Unspecified `clearCode` (R38, log 4). -/
opaque Config.freeClearCode : Nat → BitVec Config.codeRoom
/-- Unspecified `endInfoCode` (R38, log 4). -/
opaque Config.freeEndInfoCode : Nat → BitVec Config.codeRoom
/-- Unspecified `nextCode` (R38, log 4). -/
opaque Config.freeNextCode : Nat → BitVec Config.codeRoom
/-- Unspecified `prevCode`, presence bit included (R38, log 4). -/
opaque Config.freePrevCode : Nat → Option (BitVec Config.codeRoom)
/-- Unspecified `BITBUF` (R38, log 4). -/
opaque Config.freeBitBuf : Nat → BitVec Config.bufRoom
/-- Unspecified `BITCNT` (R38, log 4). -/
opaque Config.freeBitCnt : Nat → BitVec 5
/-- Unspecified `order` bit (R38, log 4). -/
opaque Config.freeOrder : Nat → BitVec 1
/-- Unspecified dictionary after power-on (R210): the content of each slot, first byte and further bytes (log 4). -/
opaque Config.freeSlot : Nat → Nat → Option (BitVec 8 × List (BitVec 8))
/-- What the status port returns for a field that is not defined (R34, U8: "any value"; log 4). -/
opaque Config.freeStatus : Nat → BitVec 32

end Sys2Proof
end

