-- ==== Sys2Proof/Word.lean ====
section
/-! DEFINITION. The words of the LZWD: bytes, code-typed values, command words (rules R7, R8, R20, R85). -/

namespace Sys2Proof

/-- A byte of `IN` or `OUT` (R7: byte width 8). -/
abbrev Byte := BitVec 8

/-- A code value, in the room that holds it for every `MAXW` (R7 `CODE_BITS`, R20; log 1). A code taken from the stream is
below `2^MAXW`. -/
abbrev Code := BitVec Config.codeRoom

/-- The command word `CMD[10:0]` (R85). -/
abbrev CmdWord := BitVec 11

/-- Bit order of the code stream (R28, R60): `LSB` = 0, `MSB` = 1. -/
inductive Order where
  | lsb
  | msb
deriving DecidableEq, Repr

end Sys2Proof
end

