-- ==== Sys2Proof/Syntax.lean ====
section
/-! DEFINITION. The instructions of the LZWD (rule R3): the six code classes of the compressed stream, the four host
commands, and the four reserved command opcodes; one constructor per row of spec/opcode_table.json. -/

namespace Sys2Proof

/-- One constructor per row of the opcode table. -/
inductive Instr where
  /-- KNOWN c (R144): a code that is in the dictionary. -/
  | known (c : Code)
  /-- CLEAR (R145): the code `2^n`; it has no operand. -/
  | clear
  /-- EOI (R146): the code `2^n + 1`; it has no operand. -/
  | eoi
  /-- KWKWK c (R147): the code equal to `nextCode` while `prevCode` is resolvable. -/
  | kwkwk (c : Code)
  /-- SKIP c (R148): an unknown code while `prevCode` is not resolvable. -/
  | skip (c : Code)
  /-- BAD c (R149): an unknown code other than `nextCode` while `prevCode` is resolvable. -/
  | bad (c : Code)
  /-- INIT (R86, R120): `CMD[7:5]`, `CMD[4]` and `CMD[3:0]`; the illegal operands are instructions too, refused by R121. -/
  | init (zero : BitVec 3) (order : Order) (n : BitVec 4)
  /-- RESET (R87, R123); `CMD[7:0]` is ignored. -/
  | reset (ignored : BitVec 8)
  /-- PUSH b (R88, R102). -/
  | push (b : Byte)
  /-- DEINIT (R89, R124); `CMD[7:0]` is ignored. -/
  | deinit (ignored : BitVec 8)
  /-- Reserved command opcode `0b000` (R89). -/
  | rsvd0 (ignored : BitVec 8)
  /-- Reserved command opcode `0b101` (R89). -/
  | rsvd5 (ignored : BitVec 8)
  /-- Reserved command opcode `0b110` (R89). -/
  | rsvd6 (ignored : BitVec 8)
  /-- Reserved command opcode `0b111` (R89). -/
  | rsvd7 (ignored : BitVec 8)
deriving DecidableEq, Repr

/-- What an instruction is written as: a command word of the command port, or a code of the stream (R3, R72, R85). -/
inductive Encoded where
  | command (w : CmdWord)
  | code (c : Code)
deriving DecidableEq, Repr

/-- The six classes of a code (R76). -/
inductive CodeClass where
  | known
  | clear
  | eoi
  | kwkwk
  | skip
  | bad
deriving DecidableEq, Repr

/-- What the classification of one code looks at (R76): whether the code is in the dictionary, whether `prevCode` is
resolvable, and the three code registers. -/
structure CodeView where
  inDict : Bool
  resolvable : Bool
  clearCode : Code
  endInfoCode : Code
  nextCode : Code
deriving DecidableEq, Repr

end Sys2Proof
end

