-- ==== Sys2Proof/WellFormed.lean ====
section
/-! DEFINITION. Which instructions the encodings admit: a code of the stream is below `2^W <= 2^MAXW` (rules R70, R72);
every command word is an instruction (R85 to R89; the illegal operands of INIT are refused by the machine, R121). -/

namespace Sys2Proof

/-- A code value the stream can carry: `c < 2^MAXW` (R72). -/
def codeFits (m : MaxWidth) (c : Code) : Bool := decide (c.toNat < m.slots)

/-- Well-formedness of an instruction of a machine with this `MAXW` (R72, R85). -/
def wellFormed (m : MaxWidth) : Instr → Bool
  | .known c => codeFits m c
  | .clear => true
  | .eoi => true
  | .kwkwk c => codeFits m c
  | .skip c => codeFits m c
  | .bad c => codeFits m c
  | .init _ _ _ => true
  | .reset _ => true
  | .push _ => true
  | .deinit _ => true
  | .rsvd0 _ => true
  | .rsvd5 _ => true
  | .rsvd6 _ => true
  | .rsvd7 _ => true

/-- The instructions that are commands of the command port (R3 (b), R85); the others are codes (R3 (a)). -/
def Instr.isCommand : Instr → Bool
  | .known _ => false
  | .clear => false
  | .eoi => false
  | .kwkwk _ => false
  | .skip _ => false
  | .bad _ => false
  | .init _ _ _ => true
  | .reset _ => true
  | .push _ => true
  | .deinit _ => true
  | .rsvd0 _ => true
  | .rsvd5 _ => true
  | .rsvd6 _ => true
  | .rsvd7 _ => true

end Sys2Proof
end

