-- ==== Sys2Proof/Decode.lean ====
section
/-! DEFINITION. The decoder and, after it, the encoder: command words (rules R85 to R89), the classification of a code
(R76, R140), and the bits of a code in the stream (R60, R72 to R74, R92). -/

namespace Sys2Proof

/-! ## Command words -/

/-- Why a number is no command word. Safe: nothing is executed. -/
inductive DecodeError where
  /-- The command port carries 11 bits (R85): a number of more bits is no command. -/
  | widerThanCommandPort (w : Nat)
deriving DecidableEq, Repr

/-- The bit `CMD[4]` as a bit order: 0 = LSB, 1 = MSB (R33, R86). -/
def Order.ofBit (b : BitVec 1) : Order := if b = 1#1 then .msb else .lsb

/-- The bit of an order: `LSB` = 0, `MSB` = 1 (R28). -/
def Order.toBit : Order → BitVec 1
  | .lsb => 0#1
  | .msb => 1#1

/-- The opcode field `CMD[10:8]` (R85). -/
def cmdOpcode (w : CmdWord) : BitVec 3 := w.extractLsb' 8 3

/-- The operand field `CMD[7:0]` (R85). -/
def cmdOperand (w : CmdWord) : BitVec 8 := w.extractLsb' 0 8

/-- INIT with the operand `[7:5]`, `[4] = order`, `[3:0] = n` (R86). -/
def decodeInit (a : BitVec 8) : Instr :=
  .init (a.extractLsb' 5 3) (Order.ofBit (a.extractLsb' 4 1)) (a.extractLsb' 0 4)

/-- The command table of R85. Total: every 11-bit word is a command or a reserved opcode. -/
def decodeCmd (w : CmdWord) : Instr :=
  if cmdOpcode w = 0b001#3 then decodeInit (cmdOperand w)
  else if cmdOpcode w = 0b010#3 then .reset (cmdOperand w)
  else if cmdOpcode w = 0b011#3 then .push (cmdOperand w)
  else if cmdOpcode w = 0b100#3 then .deinit (cmdOperand w)
  else if cmdOpcode w = 0b000#3 then .rsvd0 (cmdOperand w)
  else if cmdOpcode w = 0b101#3 then .rsvd5 (cmdOperand w)
  else if cmdOpcode w = 0b110#3 then .rsvd6 (cmdOperand w)
  else .rsvd7 (cmdOperand w)

/-- The command a number stands for; a number the port cannot carry is rejected by name. -/
def decodeWord (w : Nat) : Except DecodeError Instr :=
  if w < 2 ^ 11 then .ok (decodeCmd (BitVec.ofNat 11 w)) else .error (.widerThanCommandPort w)

/-- The instruction read from the bits the opcode table numbers. The word is a word of the command port: a code of the
stream has no bits of its own that tell it from a command or tell its class (R72, R76; log 9). -/
def decodeTableWord (nbits w : Nat) : Option Instr :=
  match decodeWord (w % 2 ^ nbits) with
  | .ok i => some i
  | .error _ => none

/-! ## Codes -/

/-- The class of the code `c` (R76, R140): the tests in the order of the source's step 4. -/
def classify (v : CodeView) (c : Code) : CodeClass :=
  if v.inDict then .known
  else if c = v.clearCode then .clear
  else if c = v.endInfoCode then .eoi
  else if !v.resolvable then .skip
  else if c = v.nextCode then .kwkwk
  else .bad

/-- The instruction that the code `c` is, in the state seen through `v` (R76). Total. -/
def decodeCode (v : CodeView) (c : Code) : Instr :=
  match classify v c with
  | .known => .known c
  | .clear => .clear
  | .eoi => .eoi
  | .kwkwk => .kwkwk c
  | .skip => .skip c
  | .bad => .bad c

/-- The instruction an encoded instruction is. -/
def decode (v : CodeView) : Encoded → Instr
  | .command w => decodeCmd w
  | .code c => decodeCode v c

/-! ## Stream bits (R60, R73, R74) -/

/-- The stream bits of one byte, in stream order (R60): bit `j` of the byte is the `j`-th in LSB order and the
`(7 - j)`-th in MSB order. -/
def bitsOfByte (o : Order) (b : Byte) : List Bool :=
  match o with
  | .lsb => (List.range 8).map (fun j => b.getLsbD j)
  | .msb => (List.range 8).map (fun j => b.getLsbD (7 - j))

/-- The value of stream bits, the first one the least significant (R73). -/
def valueLsb : List Bool → Nat
  | [] => 0
  | b :: bs => b.toNat + 2 * valueLsb bs

/-- The value of stream bits, the first one the most significant (R74). -/
def valueMsb : List Bool → Nat
  | [] => 0
  | b :: bs => b.toNat * 2 ^ bs.length + valueMsb bs

/-- The code value of `W` stream bits (R73, R74). -/
def codeOfBits (o : Order) (bits : List Bool) : Nat :=
  match o with
  | .lsb => valueLsb bits
  | .msb => valueMsb bits

/-! ## The encoder -/

/-- The operand byte of INIT (R86). -/
def encodeInitOperand (zero : BitVec 3) (order : Order) (n : BitVec 4) : BitVec 8 :=
  zero ++ order.toBit ++ n

/-- A command word from its opcode and operand (R85). -/
def cmdWord (opcode : BitVec 3) (operand : BitVec 8) : CmdWord := opcode ++ operand

/-- The encoding of an instruction: a command's word (R86 to R89), or a code's value (R72, R145, R146), which for CLEAR
and EOI is the value of the control code of the session. -/
def encode (v : CodeView) : Instr → Encoded
  | .known c => .code c
  | .clear => .code v.clearCode
  | .eoi => .code v.endInfoCode
  | .kwkwk c => .code c
  | .skip c => .code c
  | .bad c => .code c
  | .init zero order n => .command (cmdWord 0b001#3 (encodeInitOperand zero order n))
  | .reset a => .command (cmdWord 0b010#3 a)
  | .push b => .command (cmdWord 0b011#3 b)
  | .deinit a => .command (cmdWord 0b100#3 a)
  | .rsvd0 a => .command (cmdWord 0b000#3 a)
  | .rsvd5 a => .command (cmdWord 0b101#3 a)
  | .rsvd6 a => .command (cmdWord 0b110#3 a)
  | .rsvd7 a => .command (cmdWord 0b111#3 a)

/-- The `W` stream bits of the code value `c`, in stream order (R60, R92): least significant first in LSB order, most
significant first in MSB order. -/
def bitsOfCode (o : Order) (w : Nat) (c : Nat) : List Bool :=
  match o with
  | .lsb => (List.range w).map (fun i => c.testBit i)
  | .msb => (List.range w).map (fun i => c.testBit (w - 1 - i))

/-- Cut stream bits into bytes by R60, with zero bits up to a multiple of 8 (R92). `fuel` bounds the number of bytes. -/
def bytesOfBits (o : Order) : Nat → List Bool → List Byte
  | 0, _ => []
  | fuel + 1, bits =>
    match bits with
    | [] => []
    | b :: bs =>
      BitVec.ofNat 8 (codeOfBits o ((b :: bs ++ List.replicate 7 false).take 8)) :: bytesOfBits o fuel ((b :: bs).drop 8)

end Sys2Proof
end

