-- ==== Sys2Proof/Machine/State.lean ====
section
/-! DEFINITION. The state of one LZWD (rule R20, with what its ports carry: R11, R34, R58, R85, R90), the state after
power-on, and the reasons a step can stop. -/

namespace Sys2Proof.Machine

/-- `MODE` (R29): `UNINIT` = 0, `RUN` = 1, `DONE` = 2, `ERROR` = 3. -/
inductive Mode where
  | uninit
  | run
  | done
  | error
deriving DecidableEq, Repr

/-- `ERR` (R29, R180): 0 none, 1 BadCode, 2 AllocFail (reserved, never raised), 3 reserved. -/
inductive Err where
  | none
  | badCode
  | allocFail
  | reserved
deriving DecidableEq, Repr

/-- The response of a command (R90): `OK` = 0, `REFUSED` = 1, `FAULT` = 2; 3 is never returned. -/
inductive Resp where
  | ok
  | refused
  | fault
deriving DecidableEq, Repr

/-- A dictionary value (R51): a non-empty byte sequence, its first byte and the further bytes. -/
structure Entry where
  first : Byte
  rest : List Byte
deriving DecidableEq, Repr

/-- The dictionary (R27, R50, R51), the memory of this hardware: the slots that hold a value, by rising slot number. A
slot not listed holds nothing (R52). -/
abbrev Memory := List (Nat × Entry)

/-- The five words of the status port (R34). -/
inductive StatusWord where
  | status
  | nextCode
  | prevCode
  | bitBuf
  | codes
deriving DecidableEq, Repr

/-- What the host can do to the block: present a command word (R85), read a word of the status port (R34), or assert the
hardware reset input (R210). -/
inductive HostInput where
  | command (w : CmdWord)
  | statusRead (k : StatusWord)
  | resetInput
deriving DecidableEq, Repr

/-- The state of one LZWD. `maxw` is the model's argument; the next twelve fields are the record of R20; the others are the
ports and the model's own free-value counter. -/
structure State where
  /-- `MAXW`, the model argument (R7, D1, U6; log 1). A constant of the machine: no step writes it. -/
  maxw : MaxWidth
  /-- `n`, the source's `initCodeSize` (R21). -/
  n : BitVec 4
  /-- `codeSize`, the width counter; the read width is `codeSize + 1` (R22, R70). -/
  codeSize : BitVec 4
  /-- `clearCode`, `MAXW + 1` bits (R20, R23). -/
  clearCode : Code
  /-- `endInfoCode`, `MAXW + 1` bits (R20, R24). -/
  endInfoCode : Code
  /-- `nextCode`, the next free slot, `MAXW + 1` bits (R20, R25). -/
  nextCode : Code
  /-- `prevCode`, the spec's optional code, `1 + MAXW + 1` bits (R20, R26). -/
  prevCode : Option Code
  /-- `dict` (R27). -/
  dict : Memory
  /-- `BITBUF`, the held stream bits as an unsigned integer, `MAXW + 7` bits (R20, R30, R101). -/
  bitBuf : BitVec Config.bufRoom
  /-- `BITCNT`, how many stream bits are held (R30). -/
  bitCnt : BitVec 5
  /-- `order` (R28). -/
  order : Order
  /-- `MODE` (R29). -/
  mode : Mode
  /-- `ERR` (R29). -/
  err : Err
  /-- What the host has presented and the block has not served yet, oldest first (R64 (4), R226; log 5). -/
  inputs : List HostInput
  /-- `RESP` of the last command (R90); none while no command has been answered (log 6). -/
  resp : Option Resp
  /-- `OUT` (R58) up to the last command (log 6). -/
  outEarlier : List Byte
  /-- `out` of the last command (R11, R90): the segment of `OUT` it appended. -/
  cmdOut : List Byte
  /-- The word the status port last returned (R34); none while no word has been read (log 7). -/
  statusOut : Option (BitVec 32)
  /-- The model's own counter, which the free values of Config are applied to (log 4). -/
  freeCtr : Nat
deriving DecidableEq, Repr

/-- Why a meaning stops: always a state, or an instruction in a state, for which the spec gives no effect. None is a
fault of the hardware: BadCode, the one the hardware has, is taken (R186) and is a next state. -/
inductive Fault where
  /-- A code class run while `MODE` is not `RUN`: codes are executed only in `RUN` (R140, R196). Raised by the six code
  meanings; no PUSH raises it. Safe: the model stops where the hardware executes no code. -/
  | codeOutsideRun
  /-- A code run as a class it is not of in this state (R76: exactly one class applies). Raised by the meanings of KNOWN,
  KWKWK, SKIP and BAD; no PUSH raises it. Safe: the hardware never runs the class. -/
  | notOfThisClass
  /-- A PUSH in `RUN` with an accumulator that R30 and R101 exclude: `BITCNT > MAXW - 1`, the precondition of Accumulate
  (R103), or `BITBUF >= 2^BITCNT`. Raised by PUSH; no run reaches it. Safe: the spec gives no effect. -/
  | accumulatorInvalid
  /-- A code to be taken at a read width above `MAXW`, which R22 and R70 exclude. Raised by PUSH; no run reaches it.
  Safe: the spec gives no effect. -/
  | widthOverCeiling
deriving DecidableEq, Repr

/-- Why there is no meaning. -/
inductive Refusal where
  /-- The instruction has no meaning in the model. Raised by no arm of exec: every instruction has its meaning. Safe. -/
  | notModelled (mnemonic : String)
deriving DecidableEq, Repr

/-- A machine with this `MAXW` right after power-on (R38, R210): `MODE = UNINIT`, `ERR = 0`. DESIGN CHOICE (logs 2 to 7):
every other value; the spec leaves those of R20 unspecified. -/
def State.resetAt (m : MaxWidth) : State where
  maxw := m
  n := 0#4
  codeSize := 0#4
  clearCode := 0#Config.codeRoom
  endInfoCode := 0#Config.codeRoom
  nextCode := 0#Config.codeRoom
  prevCode := Option.none
  dict := []
  bitBuf := 0#Config.bufRoom
  bitCnt := 0#5
  order := Order.lsb
  mode := Mode.uninit
  err := Err.none
  inputs := []
  resp := Option.none
  outEarlier := []
  cmdOut := []
  statusOut := Option.none
  freeCtr := 0

/-- Right after power-on, with the default `MAXW` (R7, D1, R210). -/
def State.reset : State := State.resetAt Config.defaultMaxw

end Sys2Proof.Machine
end

