-- ==== Sys2Proof/Machine/Ops.lean ====
section
/-! DEFINITION. The named operations over the dictionary, the registers and the ports: DictRead, DictWrite, DictClearAll,
Emit, Reset(), raise Fault (taking the decode fault), refuse, and the free values of DEINIT and power-on. -/

namespace Sys2Proof.Machine

/-- What a meaning answers. -/
abbrev Answer := Host.Outcome State Fault Refusal

/-- Go on from a next state; a stop stays a stop. -/
def andThen (o : Answer) (f : State → Answer) : Answer :=
  match o with
  | .next s => f s
  | .fault r => .fault r
  | .refused r => .refused r

/-! ## Dictionary values -/

/-- `low8(v) = v mod 256` (R10, R122). -/
def low8 (v : Nat) : Byte := BitVec.ofNat 8 v

/-- The bytes of a value, first byte first (R51, R58). -/
def Entry.bytes (v : Entry) : List Byte := v.first :: v.rest

/-- The value of one byte. -/
def Entry.single (b : Byte) : Entry := ⟨b, []⟩

/-- `v ++ [b]`. -/
def Entry.snoc (v : Entry) (b : Byte) : Entry := ⟨v.first, v.rest ++ [b]⟩

/-- `|v|` (R8). -/
def Entry.length (v : Entry) : Nat := v.rest.length + 1

/-! ## The dictionary -/

/-- The canonical form of the dictionary: slot numbers strictly rising, each a slot that exists (R7 `DICT_SLOTS`, R51). -/
abbrev Memory.wf (m : MaxWidth) (d : Memory) : Prop :=
  d.Pairwise (fun p q => p.1 < q.1) ∧ ∀ p ∈ d, p.1 < m.slots

/-- The entry listed for slot `c`. -/
def Memory.lookup : Memory → Nat → Option Entry
  | [], _ => none
  | (k, v) :: m, c => if k = c then some v else Memory.lookup m c

/-- `DictRead(c)` (R52): the value of slot `c`, none where it holds nothing and for `c >= 2^MAXW`. -/
def Memory.read (m : MaxWidth) (d : Memory) (c : Nat) : Option Entry :=
  if c < m.slots then Memory.lookup d c else none

/-- Put `v` at slot `c`, keeping the slots in rising order. -/
def Memory.insert : Memory → Nat → Entry → Memory
  | [], c, v => [(c, v)]
  | (k, x) :: m, c, v =>
    if c < k then (c, v) :: (k, x) :: m
    else if c = k then (c, v) :: m
    else (k, x) :: Memory.insert m c v

/-- `DictWrite(c, v)` (R53): slot `c` holds `v`, no other slot changes. There is no slot `c >= 2^MAXW` to write. -/
def Memory.write (m : MaxWidth) (d : Memory) (c : Nat) (v : Entry) : Memory :=
  if c < m.slots then Memory.insert d c v else d

/-- `DictClearAll()` (R54): every slot holds nothing. -/
def Memory.clearAll : Memory := []

/-- The dictionary of root entries that the loop of `Reset()` writes into an empty dictionary (R122):
`DictWrite(c, [low8(c)])` for `c` in `0 .. count - 1`. -/
def Memory.roots (m : MaxWidth) (count : Nat) : Memory :=
  (List.range (min count m.slots)).map (fun c => (c, Entry.single (low8 c)))

/-- A dictionary of which nothing is known (R210): each slot holds what the free value says, or nothing (log 4). -/
@[irreducible] def Memory.unspecified (m : MaxWidth) (k : Nat) : Memory :=
  (List.range m.slots).filterMap
    (fun c => (Config.freeSlot k c).map (fun p => (c, (⟨p.1, p.2⟩ : Entry))))

/-- `DictRead` in a state. -/
def dictRead (s : State) (c : Nat) : Option Entry := Memory.read s.maxw s.dict c

/-- `InDict(c)` (R52). -/
def inDict (s : State) (c : Nat) : Bool := (dictRead s c).isSome

/-- `DictWrite` in a state (R53). -/
def dictWrite (c : Nat) (v : Entry) (s : State) : State := { s with dict := Memory.write s.maxw s.dict c v }

/-! ## Registers -/

/-- What a code-typed register of `MAXW + 1` bits holds after `v` is written to it (R20; R151: no rule writes more). -/
def codeReg (m : MaxWidth) (v : Nat) : Code := BitVec.ofNat Config.codeRoom (v % 2 ^ m.codeBits)

/-- What `BITBUF`, a register of `MAXW + 7` bits, holds after `v` is written to it (R20; R103: no rule writes more). -/
def bufReg (m : MaxWidth) (v : Nat) : BitVec Config.bufRoom := BitVec.ofNat Config.bufRoom (v % 2 ^ m.bufBits)

/-- `S.prevCode <- some(c)` (R26). -/
def setPrevCode (c : Code) (s : State) : State := { s with prevCode := some c }

/-- `Reset()` (R122): roots only, `codeSize` and `nextCode` restored, nothing else. -/
def resetProc (s : State) : State :=
  { s with
    dict := Memory.roots s.maxw (2 ^ s.n.toNat)
    codeSize := s.n
    nextCode := codeReg s.maxw (s.clearCode.toNat + 2) }

/-- Empty the accumulator (R146, R186). -/
def dropBits (s : State) : State := { s with bitBuf := 0#Config.bufRoom, bitCnt := 0#5 }

/-- `raise Fault(code)` (R186): the fault is taken. Nothing is saved and nothing returns from it (R188). -/
def raiseFault (e : Err) (s : State) : State := { dropBits s with err := e, mode := .error }

/-- Give the register fields that R38 calls unspecified (after DEINIT and power-on) their free values (log 4). -/
def forgetRegisters (s : State) : State :=
  { s with
    n := Config.freeN s.freeCtr
    codeSize := Config.freeCodeSize s.freeCtr
    clearCode := codeReg s.maxw (Config.freeClearCode s.freeCtr).toNat
    endInfoCode := codeReg s.maxw (Config.freeEndInfoCode s.freeCtr).toNat
    nextCode := codeReg s.maxw (Config.freeNextCode s.freeCtr).toNat
    prevCode := (Config.freePrevCode s.freeCtr).map (fun c => codeReg s.maxw c.toNat)
    bitBuf := bufReg s.maxw (Config.freeBitBuf s.freeCtr).toNat
    bitCnt := Config.freeBitCnt s.freeCtr
    order := Order.ofBit (Config.freeOrder s.freeCtr)
    freeCtr := s.freeCtr + 1 }

/-! ## Ports -/

/-- `OUT` (R58): everything emitted so far. -/
def outStream (s : State) : List Byte := s.outEarlier ++ s.cmdOut

/-- `Emit(v)` (R58). -/
def emit (v : Entry) (s : State) : State := { s with cmdOut := s.cmdOut ++ v.bytes }

/-- The start of a command: its `out` is empty, and what was emitted before stays in `OUT` (R11). -/
def beginCommand (s : State) : State := { s with outEarlier := s.outEarlier ++ s.cmdOut, cmdOut := [] }

/-- The answer of a command (R90). -/
def respond (r : Resp) (s : State) : State := { s with resp := some r }

/-- `refuse` (R190): the command answers `REFUSED`, emits nothing, and every field of R20 keeps its value. -/
def refuse (s : State) : State := respond .refused (beginCommand s)

/-- The oldest pending input of the host and the state in which it has been taken (log 5). -/
def nextInput (s : State) : Option (HostInput × State) :=
  match s.inputs with
  | [] => none
  | i :: rest => some (i, { s with inputs := rest })

/-- Present a command word as the next input. A number the port cannot carry is no command word and presents nothing. -/
def presentCommand (w : Nat) (s : State) : State :=
  if w < 2 ^ 11 then { s with inputs := .command (BitVec.ofNat 11 w) :: s.inputs } else s

end Sys2Proof.Machine
end

