-- ==== Sys2Proof/Machine/Operands.lean ====
section
/-! DEFINITION. The operands: those of INIT (R120, R121), and a code's (the accumulator and its two operations, R101 to
R104; what its classification looks at, R76). -/

namespace Sys2Proof.Machine

/-- The operands INIT accepts (R86, R121): `CMD[7:5] = 0` and `1 <= n <= MAXW - 1`. -/
def initLegal (m : MaxWidth) (zero : BitVec 3) (n : BitVec 4) : Bool :=
  decide (zero = 0#3) && decide (1 ≤ n.toNat) && decide (n.toNat < m.bits)

/-- The read width `W = codeSize + 1` (R70). -/
def readWidth (s : State) : Nat := s.codeSize.toNat + 1

/-- What R30, R101 and the precondition of R103 ask of the accumulator before a byte enters it. -/
def accumulatorValid (s : State) : Bool :=
  decide (s.bitCnt.toNat ≤ s.maxw.bits - 1) && decide (s.bitBuf.toNat < 2 ^ s.bitCnt.toNat)

/-- `Accumulate(b)` (R103): above the held bits in LSB order, below them in MSB order. -/
def accumulate (b : Byte) (s : State) : State :=
  { s with
    bitBuf := bufReg s.maxw (match s.order with
      | .lsb => s.bitBuf.toNat + b.toNat * 2 ^ s.bitCnt.toNat
      | .msb => s.bitBuf.toNat * 256 + b.toNat)
    bitCnt := BitVec.ofNat 5 (s.bitCnt.toNat + 8) }

/-- The value `TakeCode(W)` returns (R104): the `W` oldest bits. -/
def frontCode (w : Nat) (s : State) : Code :=
  codeReg s.maxw (match s.order with
    | .lsb => s.bitBuf.toNat % 2 ^ w
    | .msb => s.bitBuf.toNat >>> (s.bitCnt.toNat - w))

/-- What `TakeCode(W)` leaves (R104): the bits after the `W` oldest. -/
def dropCode (w : Nat) (s : State) : State :=
  { s with
    bitBuf := bufReg s.maxw (match s.order with
      | .lsb => s.bitBuf.toNat >>> w
      | .msb => s.bitBuf.toNat % 2 ^ (s.bitCnt.toNat - w))
    bitCnt := BitVec.ofNat 5 (s.bitCnt.toNat - w) }

/-- The value `prevCode` resolves to (R12 "resolvable", R144, R147): none where `prevCode` is none or names no entry. -/
def prevValue (s : State) : Option Entry :=
  match s.prevCode with
  | some q => dictRead s q.toNat
  | none => none

/-- What the classification of the code `c` looks at (R76, R140). -/
def viewOf (s : State) (c : Code) : CodeView where
  inDict := inDict s c.toNat
  resolvable := (prevValue s).isSome
  clearCode := s.clearCode
  endInfoCode := s.endInfoCode
  nextCode := s.nextCode

/-- The class of the code `c` in the state `s` (R76). -/
def classOf (s : State) (c : Code) : CodeClass := classify (viewOf s c) c

end Sys2Proof.Machine
end

