-- ==== Sys2Proof/Machine/Flags.lean ====
section
/-! DEFINITION. The flags: the values of MODE, ERR and RESP on the ports (R29, R34, R90), the width-growth test and the
dictionary-full test of Extend (R142, R143), and Extend itself. -/

namespace Sys2Proof.Machine

/-- `MODE` as two bits (R29). -/
def Mode.toBits : Mode → BitVec 2
  | .uninit => 0#2
  | .run => 1#2
  | .done => 2#2
  | .error => 3#2

/-- `ERR` as two bits (R29). -/
def Err.toBits : Err → BitVec 2
  | .none => 0#2
  | .badCode => 1#2
  | .allocFail => 2#2
  | .reserved => 3#2

/-- `RESP` as two bits (R90). -/
def Resp.toBits : Resp → BitVec 2
  | .ok => 0#2
  | .refused => 1#2
  | .fault => 2#2

/-- The dictionary is full: `nextCode` is no slot any more (R142, R218). -/
def dictFull (s : State) : Bool := decide (s.maxw.slots ≤ s.nextCode.toNat)

/-- The width counter after an increment that made the next free slot `next` (R142): one more exactly when `next` has
reached `2^(codeSize+1)` and the read width stays within `MAXW`. -/
def grownCodeSize (next : Nat) (s : State) : BitVec 4 :=
  if next = 2 ^ (s.codeSize.toNat + 1) ∧ s.codeSize.toNat + 1 < s.maxw.bits then
    BitVec.ofNat 4 (s.codeSize.toNat + 1)
  else s.codeSize

/-- The effect of `Extend(v)` while the dictionary is not full (R142). -/
def addEntry (v : Entry) (s : State) : State :=
  { s with
    dict := Memory.write s.maxw s.dict s.nextCode.toNat v
    nextCode := codeReg s.maxw (s.nextCode.toNat + 1)
    codeSize := grownCodeSize (s.nextCode.toNat + 1) s }

/-- `Extend(v)` (R142): a full dictionary does not change. -/
def extend (v : Entry) (s : State) : State := if dictFull s then s else addEntry v s

end Sys2Proof.Machine
end

