-- ==== Sys2Proof/Machine/Codes.lean ====
section
/-! DEFINITION. The meanings of the six code classes (spec/42_decode_codes.md, rules R144 to R149). Each is the step of one
code that has been taken from the accumulator (R141). -/

namespace Sys2Proof.Machine

/-- Codes are executed only in `RUN` (R140, R196). -/
def inRun (s : State) (f : State → Answer) : Answer :=
  if s.mode = .run then f s else .fault .codeOutsideRun

/-- Run a class on a code that is of this class (R76). -/
def asClass (k : CodeClass) (c : Code) (s : State) (f : State → Answer) : Answer :=
  if classOf s c = k then f s else .fault .notOfThisClass

/-- The extension a KNOWN code makes (R144): the previous value and the first byte of this one, when `prevCode` is
resolvable. -/
def extendFromPrev (v : Entry) (s : State) : State :=
  match prevValue s with
  | some p => extend (p.snoc v.first) s
  | none => s

/-- KNOWN c (R144). -/
def execKnown (c : Code) (s : State) : Answer :=
  inRun s fun s =>
    match dictRead s c.toNat with
    | some v => .next (setPrevCode c (extendFromPrev v (emit v s)))
    | none => .fault .notOfThisClass

/-- CLEAR (R145). -/
def execClear (s : State) : Answer :=
  inRun s fun s => .next (setPrevCode s.clearCode (resetProc s))

/-- EOI (R146): sticky `DONE`; the held bits are padding and are dropped. -/
def execEoi (s : State) : Answer :=
  inRun s fun s => .next { dropBits s with mode := .done }

/-- KWKWK c (R147). -/
def execKwkwk (c : Code) (s : State) : Answer :=
  inRun s fun s => asClass .kwkwk c s fun s =>
    match prevValue s with
    | some p => .next (setPrevCode c (extend (p.snoc p.first) (emit (p.snoc p.first) s)))
    | none => .fault .notOfThisClass

/-- SKIP c (R148): only `prevCode` is written. -/
def execSkip (c : Code) (s : State) : Answer :=
  inRun s fun s => asClass .skip c s fun s => .next (setPrevCode c s)

/-- BAD c (R149): the BadCode fault is taken (R181, R186). -/
def execBad (c : Code) (s : State) : Answer :=
  inRun s fun s => asClass .bad c s fun s => .next (raiseFault .badCode s)

/-- `Exec(c)` (R140): the code is classified and the meaning of its class runs. -/
def runCode (c : Code) (s : State) : Answer :=
  match classOf s c with
  | .known => execKnown c s
  | .clear => execClear s
  | .eoi => execEoi s
  | .kwkwk => execKwkwk c s
  | .skip => execSkip c s
  | .bad => execBad c s

end Sys2Proof.Machine
end

