-- ==== Sys2Proof/Machine/Lifecycle.lean ====
section
/-! DEFINITION. Construction, reset and teardown (spec/41_lifecycle_commands.md, rules R120 to R126). -/

namespace Sys2Proof.Machine

/-- The fields INIT computes from its operands before it runs `Reset()` (R120). -/
def latchOperands (order : Order) (n : BitVec 4) (s : State) : State :=
  { s with
    n := n
    order := order
    clearCode := codeReg s.maxw (2 ^ n.toNat)
    endInfoCode := codeReg s.maxw (2 ^ n.toNat + 1)
    codeSize := n
    nextCode := codeReg s.maxw (2 ^ n.toNat + 2) }

/-- The new session INIT starts (R120, R39, R40). -/
def startSession (order : Order) (n : BitVec 4) (s : State) : State :=
  { dropBits (resetProc (latchOperands order n s)) with prevCode := none, err := .none, mode := .run }

/-- INIT (R120); an illegal operand is refused in every mode (R121). -/
def execInit (zero : BitVec 3) (order : Order) (n : BitVec 4) (s : State) : Answer :=
  if initLegal s.maxw zero n then .next (respond .ok (startSession order n (beginCommand s))) else .next (refuse s)

/-- RESET (R123): `Reset()` in `RUN` and `DONE`; refused otherwise. The operand is ignored (R87). -/
def execReset (_ignored : BitVec 8) (s : State) : Answer :=
  match s.mode with
  | .uninit => .next (refuse s)
  | .run => .next (respond .ok (resetProc (beginCommand s)))
  | .done => .next (respond .ok (resetProc (beginCommand s)))
  | .error => .next (refuse s)

/-- The teardown (R124): the dictionary is emptied, `MODE = UNINIT`, `ERR = 0`, every other field is unspecified. -/
def tearDown (s : State) : State :=
  { forgetRegisters s with dict := Memory.clearAll, mode := .uninit, err := .none }

/-- DEINIT (R124), accepted in every mode. The operand is ignored (R89). -/
def execDeinit (_ignored : BitVec 8) (s : State) : Answer :=
  .next (respond .ok (tearDown (beginCommand s)))

end Sys2Proof.Machine
end

