-- ==== Sys2Proof/Machine/Reserved.lean ====
section
/-! DEFINITION. The reserved command opcodes (rules R89, R185, R190): refused in every mode. -/

namespace Sys2Proof.Machine

/-- Opcode `0b000` (R89). -/
def execRsvd0 (_ignored : BitVec 8) (s : State) : Answer := .next (refuse s)

/-- Opcode `0b101` (R89). -/
def execRsvd5 (_ignored : BitVec 8) (s : State) : Answer := .next (refuse s)

/-- Opcode `0b110` (R89). -/
def execRsvd6 (_ignored : BitVec 8) (s : State) : Answer := .next (refuse s)

/-- Opcode `0b111` (R89). -/
def execRsvd7 (_ignored : BitVec 8) (s : State) : Answer := .next (refuse s)

end Sys2Proof.Machine
end

