-- ==== Sys2Proof/Machine/Unpacker.lean ====
section
/-! DEFINITION. The bit-stream unpacker and PUSH (spec/40_bit_unpacker.md, rules R100 to R108). -/

namespace Sys2Proof.Machine

/-- The loop condition of R102 and R105: in `RUN`, with a whole code held. -/
def codeWaiting (s : State) : Bool := decide (s.mode = .run) && decide (readWidth s ≤ s.bitCnt.toNat)

/-- One iteration of the drain loop (R102): take the code at the width in force (R71, R104) and execute it (R140). -/
def takeAndRun (s : State) : Answer :=
  if readWidth s ≤ s.maxw.bits then runCode (frontCode (readWidth s) s) (dropCode (readWidth s) s)
  else .fault .widthOverCeiling

/-- The drain loop (R105). Every iteration takes at least one bit, so as many iterations as bits are held suffice. -/
def drain : Nat → State → Answer
  | 0, s => .next s
  | fuel + 1, s => if codeWaiting s then andThen (takeAndRun s) (drain fuel) else .next s

/-- The response of a PUSH that ran its loop (R102). -/
def respondPush (s : State) : State := respond (if s.mode = .error then .fault else .ok) s

/-- PUSH b in `RUN` (R102): the byte enters the accumulator and every whole code is executed. -/
def pushRun (b : Byte) (s : State) : Answer :=
  if accumulatorValid s then
    andThen (drain (s.bitCnt.toNat + 8) (accumulate b (beginCommand s))) fun t => .next (respondPush t)
  else .fault .accumulatorInvalid

/-- PUSH b (R102, R91): refused in `UNINIT` and `ERROR`, discarded in `DONE`. -/
def execPush (b : Byte) (s : State) : Answer :=
  match s.mode with
  | .uninit => .next (refuse s)
  | .run => pushRun b s
  | .done => .next (respond .ok (beginCommand s))
  | .error => .next (refuse s)

end Sys2Proof.Machine
end

