-- ==== Sys2Proof/Machine/Dispatch.lean ====
section
/-! DEFINITION. exec: one arm per constructor of Instr, each a direct call of the meaning of that instruction. -/

namespace Sys2Proof.Machine

def exec (i : Instr) (s : State) : Host.Outcome State Fault Refusal :=
  match i with
  | .known c => Sys2Proof.Machine.execKnown c s
  | .clear => Sys2Proof.Machine.execClear s
  | .eoi => Sys2Proof.Machine.execEoi s
  | .kwkwk c => Sys2Proof.Machine.execKwkwk c s
  | .skip c => Sys2Proof.Machine.execSkip c s
  | .bad c => Sys2Proof.Machine.execBad c s
  | .init zero order n => Sys2Proof.Machine.execInit zero order n s
  | .reset ignored => Sys2Proof.Machine.execReset ignored s
  | .push b => Sys2Proof.Machine.execPush b s
  | .deinit ignored => Sys2Proof.Machine.execDeinit ignored s
  | .rsvd0 ignored => Sys2Proof.Machine.execRsvd0 ignored s
  | .rsvd5 ignored => Sys2Proof.Machine.execRsvd5 ignored s
  | .rsvd6 ignored => Sys2Proof.Machine.execRsvd6 ignored s
  | .rsvd7 ignored => Sys2Proof.Machine.execRsvd7 ignored s

end Sys2Proof.Machine
end

