-- ==== Sys2Proof/Machine/Ports.lean ====
section
/-! DEFINITION. The status port (rules R33, R34) and the hardware reset input (R210). -/

namespace Sys2Proof.Machine

/-- `PREVVALID` (R34). -/
def prevValid (s : State) : BitVec 1 := if s.prevCode.isSome then 1#1 else 0#1

/-- `STATUS[18:4]` where `MODE != UNINIT` (R34): `BITCNT`, `codeSize`, `n`, `order`, `PREVVALID`, from the top down. -/
def statusFields (s : State) : BitVec 15 := s.bitCnt ++ s.codeSize ++ s.n ++ s.order.toBit ++ prevValid s

/-- A field of a status word: its content where R34 defines it, else the free value `free` (U8, log 4). -/
def statusField {w : Nat} (defined : Bool) (content : BitVec w) (free : BitVec 32) : BitVec w :=
  if defined then content else free.setWidth w

/-- The word of the status port that a read returns (R34); unused high bits are 0. A code field has `MAXW + 1` bits and
BITBUF `MAXW + 7`, which is R34's layout where `MAXW = 12`. DESIGN CHOICE: with `MAXW = 13` the fields keep their lowest bits
and are one bit wider (log 13). DESIGN CHOICE: the gap of CODES between `clearCode` and `endInfoCode`, bits 15:13 where
`MAXW = 12`, reads 0; R34 speaks of unused high bits only (log 12). -/
def statusWord (k : StatusWord) (s : State) : BitVec 32 :=
  let live := decide (s.mode ≠ .uninit)
  let free := Config.freeStatus s.freeCtr
  match k with
  | .status => 0#13 ++ statusField live (statusFields s) free ++ s.err.toBits ++ s.mode.toBits
  | .nextCode => (statusField live (s.nextCode.setWidth s.maxw.codeBits) free).setWidth 32
  | .prevCode =>
    match s.prevCode with
    | some c => (statusField live (c.setWidth s.maxw.codeBits) free).setWidth 32
    | none => (statusField false (0#s.maxw.codeBits) free).setWidth 32
  | .bitBuf => (statusField live (s.bitBuf.setWidth s.maxw.bufBits) free).setWidth 32
  | .codes =>
    (statusField live (s.endInfoCode.setWidth s.maxw.codeBits) (free >>> 16)).setWidth 16
      ++ (statusField live (s.clearCode.setWidth s.maxw.codeBits) free).setWidth 16

/-- A read of the status port (R34): no field of R20 changes, no response is given. -/
def readStatus (k : StatusWord) (s : State) : State :=
  { s with statusOut := some (statusWord k s), freeCtr := s.freeCtr + 1 }

/-- The hardware reset input (R210, R38 power-on column): `UNINIT`, `ERR = 0`, all else unspecified; nothing is emitted. -/
def powerOn (s : State) : State :=
  { forgetRegisters s with dict := Memory.unspecified s.maxw s.freeCtr, mode := .uninit, err := .none }

end Sys2Proof.Machine
end

