-- ==== Sys2Proof/Machine/Step.lean ====
section
/-! DEFINITION. One step: the oldest pending input of the host is served (rules R11, R34, R64 (4), R210; log 5). With none
pending nothing happens (R192). -/

namespace Sys2Proof.Machine

/-- One step of the machine. -/
def step (s : State) : Host.Outcome State Fault Refusal :=
  match nextInput s with
  | none => .next s
  | some (.command w, t) => exec (decodeCmd w) t
  | some (.statusRead k, t) => .next (readStatus k t)
  | some (.resetInput, t) => .next (powerOn t)

/-- The instruction with these table bits, presented as the next command word (logs 5 and 9). -/
def State.withFetchWord (s : State) (nbits w : Nat) : State := presentCommand (w % 2 ^ nbits) s

end Sys2Proof.Machine
end

