-- ==== Sys2Proof/Machine/Pseudo.lean ====
section
/-! DEFINITION. The notation of spec/30_encoding.md section 6: the pseudo-commands DECODE and RUNSTREAM (rule R94) and the
reference packer Pack (R92). They are expansions, not hardware (R6 (a), R94). -/

namespace Sys2Proof.Machine

/-- `DECODE [b0 .. bk]` (R94, R107): PUSH each byte, stopping early when a PUSH does not answer `OK`. -/
def decodeChunk : List Byte → State → Answer
  | [], s => .next s
  | b :: bs, s => andThen (execPush b s) fun t => if t.resp = some .ok then decodeChunk bs t else .next t

/-- `RUNSTREAM n order [bytes]` (R94). -/
def runStream (n : BitVec 4) (order : Order) (bytes : List Byte) (s : State) : Answer :=
  andThen (execInit 0#3 order n s) (decodeChunk bytes)

/-- The state after executing the code `c` (R92): a state that is not in `RUN` is kept. -/
def packNext (c : Code) (s : State) : State :=
  if s.mode = .run then
    match runCode c s with
    | .next t => t
    | .fault _ => s
    | .refused _ => s
  else s

/-- The stream bits of a code list (R92): each code at the read width of the state that the codes before it leave. -/
def packBits : List Code → State → List Bool
  | [], _ => []
  | c :: cs, s => bitsOfCode s.order (readWidth s) c.toNat ++ packBits cs (packNext c s)

/-- `Pack(n, order, codes)` (R92) for a machine with this `MAXW`: the packed bits from the state after `INIT(n, order)`, cut
into bytes. -/
def pack (m : MaxWidth) (n : BitVec 4) (order : Order) (codes : List Code) : List Byte :=
  let bits := packBits codes (startSession order n (State.resetAt m))
  bytesOfBits order bits.length bits

end Sys2Proof.Machine
end

