-- ==== Sys2Proof/Safety.lean ====
section
/-! DEFINITION. What claims are stated in: the invariant of R36, the held stream bits (R101), the drain loop and the bit
stream as relations (R105, R73, R74), and states that agree up to the ports. -/

namespace Sys2Proof.Machine

/-! ## The invariant (R36) -/

/-- The invariants of a session that hold in every mode but `UNINIT`, also between two codes of one PUSH
(R36 items 1 to 6 and 8). -/
structure Session (s : State) : Prop where
  /-- R36 (1). -/
  nLow : 1 ≤ s.n.toNat
  nHigh : s.n.toNat ≤ s.maxw.bits - 1
  clear : s.clearCode.toNat = 2 ^ s.n.toNat
  endInfo : s.endInfoCode.toNat = 2 ^ s.n.toNat + 1
  /-- R36 (2). -/
  widthLow : s.n.toNat ≤ s.codeSize.toNat
  widthHigh : s.codeSize.toNat ≤ s.maxw.bits - 1
  /-- R36 (3). -/
  nextLow : s.clearCode.toNat + 2 ≤ s.nextCode.toNat
  nextHigh : s.nextCode.toNat ≤ 2 ^ s.maxw.bits
  /-- R36 (4), for `n >= 2`. -/
  growBelow : 2 ≤ s.n.toNat → s.codeSize.toNat < s.maxw.bits - 1 → s.nextCode.toNat < 2 ^ (s.codeSize.toNat + 1)
  growAbove : 2 ≤ s.n.toNat → s.n.toNat < s.codeSize.toNat → 2 ^ s.codeSize.toNat ≤ s.nextCode.toNat
  /-- R36 (4), for `n = 1`. -/
  degenerate : s.n.toNat = 1 → s.codeSize.toNat = 1 ∧ 4 ≤ s.nextCode.toNat
  /-- R36 (5). -/
  inDictIff : ∀ c : Nat, inDict s c = true ↔
    c < 2 ^ s.n.toNat ∨ s.clearCode.toNat + 2 ≤ c ∧ c < s.nextCode.toNat
  /-- R36 (6). -/
  rootValue : ∀ c : Nat, c < 2 ^ s.n.toNat → dictRead s c = some (Entry.single (low8 c))
  learnedLength : ∀ (c : Nat) (v : Entry), s.clearCode.toNat + 2 ≤ c → dictRead s c = some v →
    2 ≤ v.length ∧ v.length ≤ c - s.clearCode.toNat
  /-- R36 (8). -/
  prevCodeLegal : ∀ q : Code, s.prevCode = some q → q.toNat < 2 ^ s.maxw.bits ∧ q ≠ s.endInfoCode

/-- The registers hold no more bits than R20 gives them: `MAXW + 1` for the code-typed ones, `MAXW + 7` for BITBUF. -/
structure WithinWidths (s : State) : Prop where
  clearCode : s.clearCode.toNat < 2 ^ s.maxw.codeBits
  endInfoCode : s.endInfoCode.toNat < 2 ^ s.maxw.codeBits
  nextCode : s.nextCode.toNat < 2 ^ s.maxw.codeBits
  prevCode : ∀ q : Code, s.prevCode = some q → q.toNat < 2 ^ s.maxw.codeBits
  bitBuf : s.bitBuf.toNat < 2 ^ s.maxw.bufBits

/-- The invariant of the machine between commands: R36, with what the modes say of `ERR` and of the accumulator (R29, R30,
R36 (7), R38, R186), the widths of R20, and the canonical form of the dictionary. -/
structure Inv (s : State) : Prop where
  memWf : Memory.wf s.maxw s.dict
  widths : WithinWidths s
  session : s.mode ≠ .uninit → Session s
  /-- R36 (7) in `RUN`. -/
  heldInRun : s.mode = .run → s.bitCnt.toNat ≤ s.maxw.bits - 1 ∧ s.bitBuf.toNat < 2 ^ s.bitCnt.toNat
  /-- R36 (7) in `DONE`; R186 in `ERROR`. -/
  heldAfterEnd : s.mode = .done ∨ s.mode = .error → s.bitCnt = 0#5 ∧ s.bitBuf = 0#Config.bufRoom
  /-- R29, R38. -/
  errIffError : s.err = if s.mode = .error then .badCode else .none

/-! ## Instructions and the states they are met in -/

/-- The instruction `i` is one that the state seen through `v` can meet (R76): for a code, the condition of its class; a
command is met in every state. -/
def metIn (v : CodeView) : Instr → Prop
  | .known _ => v.inDict = true
  | .clear => v.inDict = false
  | .eoi => v.inDict = false ∧ v.endInfoCode ≠ v.clearCode
  | .kwkwk c => v.inDict = false ∧ c ≠ v.clearCode ∧ c ≠ v.endInfoCode ∧ v.resolvable = true ∧ c = v.nextCode
  | .skip c => v.inDict = false ∧ c ≠ v.clearCode ∧ c ≠ v.endInfoCode ∧ v.resolvable = false
  | .bad c => v.inDict = false ∧ c ≠ v.clearCode ∧ c ≠ v.endInfoCode ∧ v.resolvable = true ∧ c ≠ v.nextCode
  | .init _ _ _ => True
  | .reset _ => True
  | .push _ => True
  | .deinit _ => True
  | .rsvd0 _ => True
  | .rsvd5 _ => True
  | .rsvd6 _ => True
  | .rsvd7 _ => True

/-- `prevCode` is resolvable (R12, R140): it is present and names a dictionary entry. -/
def Resolvable (s : State) : Prop := ∃ q, s.prevCode = some q ∧ inDict s q.toNat = true

/-- An unknown code that is no control code (R140, last branch). -/
def Unknown (s : State) (c : Code) : Prop :=
  inDict s c.toNat = false ∧ c ≠ s.clearCode ∧ c ≠ s.endInfoCode

/-- The commands the hardware refuses (R185): the complete list, by the state the command meets. -/
def refusedIn (s : State) : Instr → Prop
  | .known _ => False
  | .clear => False
  | .eoi => False
  | .kwkwk _ => False
  | .skip _ => False
  | .bad _ => False
  | .init zero _ n => n.toNat = 0 ∨ s.maxw.bits ≤ n.toNat ∨ zero ≠ 0#3
  | .reset _ => s.mode = .uninit ∨ s.mode = .error
  | .push _ => s.mode = .uninit ∨ s.mode = .error
  | .deinit _ => False
  | .rsvd0 _ => True
  | .rsvd5 _ => True
  | .rsvd6 _ => True
  | .rsvd7 _ => True

/-! ## Held stream bits -/

/-- The held stream bits, oldest first (R101). -/
def heldBits (s : State) : List Bool :=
  match s.order with
  | .lsb => (List.range s.bitCnt.toNat).map (fun i => s.bitBuf.getLsbD i)
  | .msb => (List.range s.bitCnt.toNat).map (fun i => s.bitBuf.getLsbD (s.bitCnt.toNat - 1 - i))

/-! ## Executing codes -/

/-- Executing `k` codes from the accumulator, one after the other, until no whole code is held or the mode is not `RUN`
any more (R105); each code is taken at the width in force when it is taken (R71). -/
inductive Drains : Nat → State → State → Prop where
  | stop (s : State) (h : ¬(s.mode = .run ∧ s.codeSize.toNat + 1 ≤ s.bitCnt.toNat)) : Drains 0 s s
  | take (k : Nat) (s t u : State) (hr : s.mode = .run) (hw : s.codeSize.toNat + 1 ≤ s.bitCnt.toNat)
      (he : exec (decodeCode (viewOf s (frontCode (s.codeSize.toNat + 1) s)) (frontCode (s.codeSize.toNat + 1) s))
          (dropCode (s.codeSize.toNat + 1) s) = .next t)
      (hd : Drains k t u) : Drains (k + 1) s u

/-- Executing the codes of an unsplit bit stream (R60, R70 to R74): while the mode is `RUN` and the stream holds a whole
code, its first `W` bits are the next code, by the formulas of R73 and R74. `StreamRun bits s rest u`: from `s` the
bits are executed up to `rest`, which leaves `u`. -/
inductive StreamRun : List Bool → State → List Bool → State → Prop where
  | stop (bits : List Bool) (s : State) (h : ¬(s.mode = .run ∧ s.codeSize.toNat + 1 ≤ bits.length)) :
      StreamRun bits s bits s
  | take (bits rest : List Bool) (s t u : State) (c : Code) (hr : s.mode = .run)
      (hw : s.codeSize.toNat + 1 ≤ bits.length)
      (hc : c.toNat = codeOfBits s.order (bits.take (s.codeSize.toNat + 1)))
      (he : exec (decodeCode (viewOf s c) c) s = .next t)
      (hd : StreamRun (bits.drop (s.codeSize.toNat + 1)) t rest u) : StreamRun bits s rest u

/-! ## States up to the ports -/

/-- The state with everything emitted merged into `OUT` and no response shown: what of a state does not depend on how
the commands that led to it were divided (R107). -/
def settled (s : State) : State := { s with resp := none, outEarlier := outStream s, cmdOut := [] }

/-- The state with an empty accumulator, up to the ports. -/
def bare (s : State) : State := dropBits (settled s)

/-- Two states of machines with the same `MAXW` hold the same values in every field of R20. -/
abbrev SameCore (s t : State) : Prop :=
  s.maxw = t.maxw ∧ s.n = t.n ∧ s.codeSize = t.codeSize ∧ s.clearCode = t.clearCode ∧ s.endInfoCode = t.endInfoCode ∧
  s.nextCode = t.nextCode ∧ s.prevCode = t.prevCode ∧ s.dict = t.dict ∧ s.bitBuf = t.bitBuf ∧
  s.bitCnt = t.bitCnt ∧ s.order = t.order ∧ s.mode = t.mode ∧ s.err = t.err

/-- Apply a function to a next state; a stop stays a stop. -/
def mapNext (f : State → State) (o : Answer) : Answer := andThen o fun s => .next (f s)

end Sys2Proof.Machine
end

