-- ==== Sys2Proof/Certificates/Slice0/Obligations.lean ====
section
/-! DEFINITION. The statements for the provers, made from the numbered rules of spec/. Where a next state is written out,
`resp`, `cmdOut` and `outEarlier` are the model's records of the response port and of `OUT` (log 6): a command that emits
nothing leaves `cmdOut` empty and `OUT`, the two parts together, as it was. -/

open Sys2Proof Sys2Proof.Machine

/-! ## The step, the reset state, the encodings -/

/-- The command word at the head of the host's queue is decoded and executed; around it the step only takes it off the
queue (R11, R64 (4); log 5). -/
def Obligations.StepRunsTheDecodedCommand : Prop :=
  ∀ (s : State) (w : CmdWord) (rest : List HostInput) (i : Instr),
    s.inputs = .command w :: rest → decodeWord w.toNat = .ok i → wellFormed s.maxw i = true →
    step s = exec i { s with inputs := rest }

/-- The other inputs: with none pending nothing happens (R192; the queue is the model's choice, log 5), and a status read
changes nothing but the port's own record (R34; log 7). -/
def Obligations.StepIdlesAndServesStatusReads : Prop :=
  ∀ s : State,
    (s.inputs = [] → step s = .next s) ∧
    ∀ (k : StatusWord) (rest : List HostInput), s.inputs = .statusRead k :: rest →
      step s = .next { s with inputs := rest, statusOut := some (statusWord k s), freeCtr := s.freeCtr + 1 }

/-- R210: what the spec says of the state after power-on, for the reset state of every `MAXW` and for the reset input. -/
def Obligations.PowerOnLeavesUninit : Prop :=
  (∀ m : MaxWidth,
    (State.resetAt m).mode = .uninit ∧ (State.resetAt m).err = .none ∧ outStream (State.resetAt m) = []) ∧
  State.reset = State.resetAt .twelve ∧
  ∀ (s : State) (rest : List HostInput), s.inputs = .resetInput :: rest →
    ∃ t, step s = .next t ∧ t.mode = .uninit ∧ t.err = .none ∧ outStream t = outStream s ∧ t.inputs = rest ∧
      t.resp = s.resp ∧ t.statusOut = s.statusOut

/-- Command words written out in R93 and in 95_test_vectors.md decode to their commands. -/
def Obligations.SampleCommandWordsDecode : Prop :=
  decodeCmd 0x102#11 = .init 0#3 .lsb 2#4 ∧ decodeCmd 0x118#11 = .init 0#3 .msb 8#4 ∧
  decodeCmd 0x34c#11 = .push 0x4c#8 ∧ decodeCmd 0x200#11 = .reset 0#8 ∧ decodeCmd 0x400#11 = .deinit 0#8 ∧
  decodeCmd 0x122#11 = .init 1#3 .lsb 2#4 ∧ decodeCmd 0x000#11 = .rsvd0 0#8 ∧ decodeCmd 0x500#11 = .rsvd5 0#8 ∧
  decodeCmd 0x600#11 = .rsvd6 0#8 ∧ decodeCmd 0x7ff#11 = .rsvd7 0xff#8

/-- The rows `n = 2` and `n = 8` of R77. -/
def Obligations.SampleCodesClassify : Prop :=
  let v2 : CodeView := ⟨false, true, 4#14, 5#14, 6#14⟩
  let v8 : CodeView := ⟨false, true, 256#14, 257#14, 258#14⟩
  decodeCode { v2 with inDict := true } 3#14 = .known 3#14 ∧ decodeCode v2 4#14 = .clear ∧
  decodeCode v2 5#14 = .eoi ∧ decodeCode v2 6#14 = .kwkwk 6#14 ∧ decodeCode v2 7#14 = .bad 7#14 ∧
  decodeCode { v2 with resolvable := false } 6#14 = .skip 6#14 ∧
  decodeCode v8 256#14 = .clear ∧ decodeCode v8 257#14 = .eoi ∧ decodeCode v8 258#14 = .kwkwk 258#14 ∧
  decodeCode v8 259#14 = .bad 259#14

/-- Decode and encode agree, for every instruction and every operand the encodings admit. -/
def Obligations.DecodeOfEncodeIsTheInstruction : Prop :=
  ∀ (m : MaxWidth) (v : CodeView) (i : Instr), wellFormed m i = true → metIn v i → decode v (encode v i) = i

/-- The other direction: every command word, and every code value in every view, is the encoding of what it decodes to. -/
def Obligations.EncodeOfDecodeIsTheWord : Prop :=
  ∀ (v : CodeView) (e : Encoded), encode v (decode v e) = e

/-- R72 to R74: `W` stream bits and a code value below `2^W` are two forms of one thing, in both bit orders. -/
def Obligations.StreamBitsAndCodeValuesAgree : Prop :=
  ∀ (o : Order) (w c : Nat) (bits : List Bool),
    (c < 2 ^ w → (bitsOfCode o w c).length = w ∧ codeOfBits o (bitsOfCode o w c) = c) ∧
    (bits.length = w → codeOfBits o bits < 2 ^ w ∧ bitsOfCode o w (codeOfBits o bits) = bits)

/-! ## The bit unpacker -/

/-- R103 in the terms of R60 and R101: the byte's eight bits come after the held ones, in stream order. -/
def Obligations.AccumulateAppendsTheByteInStreamOrder : Prop :=
  ∀ (s : State) (b : Byte), s.bitCnt.toNat ≤ s.maxw.bits - 1 → s.bitBuf.toNat < 2 ^ s.bitCnt.toNat →
    heldBits (accumulate b s) = heldBits s ++ bitsOfByte s.order b ∧
    (accumulate b s).bitCnt.toNat = s.bitCnt.toNat + 8 ∧
    (accumulate b s).bitBuf.toNat < 2 ^ (accumulate b s).bitCnt.toNat ∧
    accumulate b s = { s with bitBuf := (accumulate b s).bitBuf, bitCnt := (accumulate b s).bitCnt }

/-- R104 in the terms of R73, R74 and R101: the `W` oldest bits are the code, the others stay. -/
def Obligations.TakeCodeTakesTheOldestBits : Prop :=
  ∀ (s : State) (w : Nat), w ≤ s.maxw.bits → w ≤ s.bitCnt.toNat → s.bitBuf.toNat < 2 ^ s.bitCnt.toNat →
    s.bitBuf.toNat < 2 ^ s.maxw.bufBits →
    (frontCode w s).toNat = codeOfBits s.order ((heldBits s).take w) ∧
    heldBits (dropCode w s) = (heldBits s).drop w ∧
    (dropCode w s).bitCnt.toNat = s.bitCnt.toNat - w ∧
    (dropCode w s).bitBuf.toNat < 2 ^ (s.bitCnt.toNat - w) ∧
    dropCode w s = { s with bitBuf := (dropCode w s).bitBuf, bitCnt := (dropCode w s).bitCnt }

/-! ## The code classes -/

/-- R144: KNOWN emits the entry, becomes `prevCode`, and makes exactly the extension the rule gives; the rest is kept. -/
def Obligations.KnownEmitsAndExtends : Prop :=
  ∀ (s : State) (c : Code) (v : Entry), s.mode = .run → dictRead s c.toNat = some v →
    ∃ t, exec (.known c) s = .next t ∧
      t.cmdOut = s.cmdOut ++ v.first :: v.rest ∧ t.prevCode = some c ∧
      t = { s with
        dict := t.dict, nextCode := t.nextCode, codeSize := t.codeSize, prevCode := t.prevCode, cmdOut := t.cmdOut } ∧
      (∀ (q : Code) (p : Entry), s.prevCode = some q → dictRead s q.toNat = some p →
        s.nextCode.toNat < 2 ^ s.maxw.bits →
        dictRead t s.nextCode.toNat = some ⟨p.first, p.rest ++ [v.first]⟩ ∧
        (∀ a, a ≠ s.nextCode.toNat → dictRead t a = dictRead s a) ∧
        t.nextCode.toNat = s.nextCode.toNat + 1 ∧
        t.codeSize.toNat =
          if s.nextCode.toNat + 1 = 2 ^ (s.codeSize.toNat + 1) ∧ s.codeSize.toNat + 1 < s.maxw.bits
          then s.codeSize.toNat + 1 else s.codeSize.toNat) ∧
      (¬Resolvable s ∨ 2 ^ s.maxw.bits ≤ s.nextCode.toNat →
        t.dict = s.dict ∧ t.nextCode = s.nextCode ∧ t.codeSize = s.codeSize)

/-- R145: CLEAR leaves the root entries only, the initial width and free slot, and the clear code as `prevCode`; it emits
nothing and touches nothing else. -/
def Obligations.ClearRestoresTheRoots : Prop :=
  ∀ s : State, s.mode = .run →
    ∃ t, exec .clear s = .next t ∧
      (∀ c, dictRead t c = if c < 2 ^ s.n.toNat ∧ c < 2 ^ s.maxw.bits then some ⟨BitVec.ofNat 8 c, []⟩ else none) ∧
      t = { s with
        dict := t.dict, codeSize := s.n, nextCode := codeReg s.maxw (s.clearCode.toNat + 2)
        prevCode := some s.clearCode }

/-- R146: EOI sets `DONE`, drops the held bits and changes nothing else; every later PUSH is discarded. -/
def Obligations.EoiEndsTheSession : Prop :=
  (∀ s : State, s.mode = .run →
    exec .eoi s = .next { s with mode := .done, bitBuf := 0#Config.bufRoom, bitCnt := 0#5 }) ∧
  (∀ (s : State) (b : Byte), s.mode = .done →
    exec (.push b) s = .next { s with resp := some .ok, outEarlier := s.outEarlier ++ s.cmdOut, cmdOut := [] })

/-- R147: KWKWK emits the previous value with its own first byte appended and stores it at the slot the code names. -/
def Obligations.KwkwkLearnsTheEntryItNames : Prop :=
  ∀ (s : State) (c q : Code) (p : Entry), s.mode = .run → Unknown s c → s.prevCode = some q →
    dictRead s q.toNat = some p → c = s.nextCode → c.toNat < 2 ^ s.maxw.bits →
    ∃ t, exec (.kwkwk c) s = .next t ∧
      t.cmdOut = s.cmdOut ++ (p.first :: p.rest ++ [p.first]) ∧ t.prevCode = some c ∧
      dictRead t c.toNat = some ⟨p.first, p.rest ++ [p.first]⟩ ∧
      (∀ a, a ≠ c.toNat → dictRead t a = dictRead s a) ∧
      t.nextCode.toNat = c.toNat + 1 ∧
      t.codeSize.toNat =
        (if c.toNat + 1 = 2 ^ (s.codeSize.toNat + 1) ∧ s.codeSize.toNat + 1 < s.maxw.bits
         then s.codeSize.toNat + 1 else s.codeSize.toNat) ∧
      t = { s with
        dict := t.dict, nextCode := t.nextCode, codeSize := t.codeSize, prevCode := t.prevCode, cmdOut := t.cmdOut }

/-- R148: SKIP only records the code, whether it equals `nextCode` or is larger. -/
def Obligations.SkipOnlyRecordsTheCode : Prop :=
  ∀ (s : State) (c : Code), s.mode = .run → Unknown s c → ¬Resolvable s →
    exec (.skip c) s = .next { s with prevCode := some c }

/-- R149, R186: BAD takes the BadCode fault; nothing else changes, `prevCode` and the dictionary included, and the PUSH in
which a fault was taken, and no other, answers `FAULT`. -/
def Obligations.BadCodeFaultIsTaken : Prop :=
  (∀ (s : State) (c : Code), s.mode = .run → Unknown s c → Resolvable s → c ≠ s.nextCode →
    exec (.bad c) s =
      .next { s with mode := .error, err := .badCode, bitBuf := 0#Config.bufRoom, bitCnt := 0#5 }) ∧
  (∀ (s t : State) (b : Byte), s.mode = .run → exec (.push b) s = .next t →
    (t.resp = some .fault ↔ t.mode = .error) ∧ (t.mode = .error → t.err = .badCode ∧ t.bitCnt = 0#5))

/-- Where a code class stops by name: outside `RUN`, where the hardware executes no code (R140, R196), and on a code that
is of another class (R76). The stops are the model's (log 8). -/
def Obligations.CodesStopWhereNoCodeOfTheClassRuns : Prop :=
  (∀ (s : State) (i : Instr), i.isCommand = false → s.mode ≠ .run → exec i s = .fault .codeOutsideRun) ∧
  (∀ (s : State) (c : Code), s.mode = .run →
    (inDict s c.toNat = false → exec (.known c) s = .fault .notOfThisClass) ∧
    (¬(Unknown s c ∧ Resolvable s ∧ c = s.nextCode) → exec (.kwkwk c) s = .fault .notOfThisClass) ∧
    (¬(Unknown s c ∧ ¬Resolvable s) → exec (.skip c) s = .fault .notOfThisClass) ∧
    (¬(Unknown s c ∧ Resolvable s ∧ c ≠ s.nextCode) → exec (.bad c) s = .fault .notOfThisClass))

/-- R140, R76: executing a code runs the class the tests give it, in their order, and always completes in `RUN`. -/
def Obligations.EveryCodeRunsAsItsClass : Prop :=
  ∀ (s : State) (c : Code),
    (inDict s c.toNat = true → runCode c s = exec (.known c) s) ∧
    (inDict s c.toNat = false → c = s.clearCode → runCode c s = exec .clear s) ∧
    (inDict s c.toNat = false → c ≠ s.clearCode → c = s.endInfoCode → runCode c s = exec .eoi s) ∧
    (Unknown s c → ¬Resolvable s → runCode c s = exec (.skip c) s) ∧
    (Unknown s c → Resolvable s → c = s.nextCode → runCode c s = exec (.kwkwk c) s) ∧
    (Unknown s c → Resolvable s → c ≠ s.nextCode → runCode c s = exec (.bad c) s) ∧
    runCode c s = exec (decodeCode (viewOf s c) c) s ∧
    (s.mode = .run → ∃ t, runCode c s = .next t)

/-- R142: Extend, in both its cases. -/
def Obligations.ExtendGrowsTheWidthAtTheBoundary : Prop :=
  ∀ (s : State) (v : Entry),
    (s.nextCode.toNat < 2 ^ s.maxw.bits →
      dictRead (extend v s) s.nextCode.toNat = some v ∧
      (∀ a, a ≠ s.nextCode.toNat → dictRead (extend v s) a = dictRead s a) ∧
      (extend v s).nextCode.toNat = s.nextCode.toNat + 1 ∧
      (extend v s).codeSize.toNat =
        (if s.nextCode.toNat + 1 = 2 ^ (s.codeSize.toNat + 1) ∧ s.codeSize.toNat + 1 < s.maxw.bits
         then s.codeSize.toNat + 1 else s.codeSize.toNat) ∧
      extend v s = { s with
        dict := (extend v s).dict, nextCode := (extend v s).nextCode, codeSize := (extend v s).codeSize }) ∧
    (2 ^ s.maxw.bits ≤ s.nextCode.toNat → extend v s = s)

/-- R143 (d): from a reset, the width grows by one bit after exactly `2^n - 2` extensions, and not before. -/
def Obligations.WidthGrowsAfterTheCountedExtensions : Prop :=
  ∀ (s : State) (vs : List Entry), 2 ≤ s.n.toNat → s.n.toNat ≤ s.maxw.bits - 2 → s.clearCode.toNat = 2 ^ s.n.toNat →
    vs.length ≤ 2 ^ s.n.toNat - 2 →
    (vs.foldl (fun t v => extend v t) (resetProc s)).codeSize.toNat =
      if vs.length = 2 ^ s.n.toNat - 2 then s.n.toNat + 1 else s.n.toNat

/-- R79: between two resets the read width is a function of `nextCode`. -/
def Obligations.WidthFollowsTheSchedule : Prop :=
  ∀ s : State, Inv s → s.mode ≠ .uninit →
    (2 ≤ s.n.toNat → readWidth s = min s.maxw.bits (Nat.log2 s.nextCode.toNat + 1)) ∧
    (s.n.toNat = 1 → readWidth s = 2)

/-- R153 (a): a root code emits exactly its low byte. -/
def Obligations.RootCodesEmitTheirLowByte : Prop :=
  ∀ (s : State) (c : Code), Inv s → s.mode = .run → c.toNat < 2 ^ s.n.toNat →
    ∃ t, runCode c s = .next t ∧ t.cmdOut = s.cmdOut ++ [BitVec.ofNat 8 c.toNat]

/-! ## The commands -/

/-- R120: INIT with a legal operand starts a new session, in every mode. -/
def Obligations.InitStartsAFreshSession : Prop :=
  ∀ (s : State) (order : Order) (n : BitVec 4), 1 ≤ n.toNat → n.toNat ≤ s.maxw.bits - 1 →
    ∃ t, exec (.init 0#3 order n) s = .next t ∧
      (∀ c, dictRead t c = if c < 2 ^ n.toNat then some ⟨BitVec.ofNat 8 c, []⟩ else none) ∧
      t.clearCode.toNat = 2 ^ n.toNat ∧ t.endInfoCode.toNat = 2 ^ n.toNat + 1 ∧ t.nextCode.toNat = 2 ^ n.toNat + 2 ∧
      t = { s with
        n := n, order := order, codeSize := n, clearCode := t.clearCode, endInfoCode := t.endInfoCode
        nextCode := t.nextCode, dict := t.dict, prevCode := none, bitBuf := 0#Config.bufRoom, bitCnt := 0#5
        err := .none, mode := .run, resp := some .ok, outEarlier := s.outEarlier ++ s.cmdOut, cmdOut := [] }

/-- R121: an illegal operand of INIT is refused in every mode, with no change of state. -/
def Obligations.InitWithIllegalOperandIsRefused : Prop :=
  ∀ (s : State) (zero : BitVec 3) (order : Order) (n : BitVec 4),
    n.toNat = 0 ∨ s.maxw.bits ≤ n.toNat ∨ zero ≠ 0#3 →
    exec (.init zero order n) s =
      .next { s with resp := some .refused, outEarlier := s.outEarlier ++ s.cmdOut, cmdOut := [] }

/-- R40: nothing of a previous session survives an INIT, whatever the two previous states were. -/
def Obligations.InitForgetsTheEarlierSession : Prop :=
  ∀ (s₁ s₂ : State) (order : Order) (n : BitVec 4), s₁.maxw = s₂.maxw → 1 ≤ n.toNat → n.toNat ≤ s₁.maxw.bits - 1 →
    ∃ t₁ t₂, exec (.init 0#3 order n) s₁ = .next t₁ ∧ exec (.init 0#3 order n) s₂ = .next t₂ ∧ SameCore t₁ t₂ ∧
      t₁.mode = .run

/-- R123: RESET in `RUN` and `DONE` is exactly `Reset()`; the ignored operand does not matter. -/
def Obligations.ResetCommandRestoresTheDictionary : Prop :=
  ∀ (s : State) (x : BitVec 8),
    (s.mode = .run ∨ s.mode = .done →
      ∃ t, exec (.reset x) s = .next t ∧
        (∀ c, dictRead t c = if c < 2 ^ s.n.toNat ∧ c < 2 ^ s.maxw.bits then some ⟨BitVec.ofNat 8 c, []⟩ else none) ∧
        t = { s with
          dict := t.dict, codeSize := s.n, nextCode := codeReg s.maxw (s.clearCode.toNat + 2)
          resp := some .ok, outEarlier := s.outEarlier ++ s.cmdOut, cmdOut := [] }) ∧
    (s.mode = .uninit ∨ s.mode = .error →
      exec (.reset x) s =
        .next { s with resp := some .refused, outEarlier := s.outEarlier ++ s.cmdOut, cmdOut := [] })

/-- R125: RESET, INIT and the internal Reset() done twice leave what they leave once. -/
def Obligations.ResetAndInitAreIdempotent : Prop :=
  (∀ s : State, resetProc (resetProc s) = resetProc s) ∧
  (∀ (s t : State) (x y : BitVec 8), exec (.reset x) s = .next t → exec (.reset y) t = .next t) ∧
  (∀ (s t : State) (order : Order) (n : BitVec 4), 1 ≤ n.toNat → n.toNat ≤ s.maxw.bits - 1 →
    exec (.init 0#3 order n) s = .next t → exec (.init 0#3 order n) t = .next t)

/-- R124: DEINIT empties the dictionary and leaves `UNINIT` with `ERR = 0`, in every mode; nothing is said of the
unspecified fields (log 4). -/
def Obligations.DeinitTearsTheSessionDown : Prop :=
  ∀ (s : State) (x : BitVec 8),
    ∃ t, exec (.deinit x) s = .next t ∧ (∀ c, dictRead t c = none) ∧ t.mode = .uninit ∧ t.err = .none ∧
      t.resp = some .ok ∧ t.cmdOut = [] ∧ t.outEarlier = s.outEarlier ++ s.cmdOut ∧ t.inputs = s.inputs ∧
      t.statusOut = s.statusOut

/-- R89, R190: a reserved opcode is refused in every mode and changes no field of R20; the refusal is the whole effect the
spec gives it. -/
def Obligations.ReservedOpcodesAreRefused : Prop :=
  ∀ (s : State) (x : BitVec 8) (i : Instr), i = .rsvd0 x ∨ i = .rsvd5 x ∨ i = .rsvd6 x ∨ i = .rsvd7 x →
    exec i s = .next { s with resp := some .refused, outEarlier := s.outEarlier ++ s.cmdOut, cmdOut := [] }

/-- R185, R91: the complete list of the commands that are refused, and R190: what a refused command leaves. -/
def Obligations.ExactlyTheListedCommandsAreRefused : Prop :=
  ∀ (s t : State) (i : Instr), i.isCommand = true → exec i s = .next t →
    (t.resp = some .refused ↔ refusedIn s i) ∧
    (refusedIn s i →
      t = { s with resp := some .refused, outEarlier := s.outEarlier ++ s.cmdOut, cmdOut := [] })

/-- R102, R105: PUSH in each mode. In `RUN`, in a state whose accumulator and widths are in their ranges (R30, R22, R21),
it completes: the byte is accumulated and the whole codes held are executed one after the other, at most nine of them
where `MAXW = 12` (at most `(MAXW + 7) / 2`). -/
def Obligations.PushExecutesEveryWholeCode : Prop :=
  ∀ (s : State) (b : Byte),
    (s.mode = .run → 1 ≤ s.n.toNat → s.n.toNat ≤ s.maxw.bits - 1 → 1 ≤ s.codeSize.toNat →
      s.codeSize.toNat ≤ s.maxw.bits - 1 → s.bitCnt.toNat ≤ s.maxw.bits - 1 →
      s.bitBuf.toNat < 2 ^ s.bitCnt.toNat →
      ∃ k u, k ≤ (s.maxw.bits + 7) / 2 ∧
        Drains k (accumulate b { s with outEarlier := s.outEarlier ++ s.cmdOut, cmdOut := [] }) u ∧
        exec (.push b) s = .next { u with resp := some (if u.mode = .error then .fault else .ok) }) ∧
    (s.mode = .done →
      exec (.push b) s = .next { s with resp := some .ok, outEarlier := s.outEarlier ++ s.cmdOut, cmdOut := [] }) ∧
    (s.mode = .uninit ∨ s.mode = .error →
      exec (.push b) s =
        .next { s with resp := some .refused, outEarlier := s.outEarlier ++ s.cmdOut, cmdOut := [] })

/-- R36 (7), R30, R108: after a PUSH no whole code is left waiting, and a PUSH never blocks. -/
def Obligations.PushLeavesNoWholeCodeWaiting : Prop :=
  ∀ (s : State) (b : Byte), Inv s → s.mode = .run →
    ∃ t, exec (.push b) s = .next t ∧
      (t.mode = .run → t.bitCnt.toNat ≤ t.codeSize.toNat ∧ t.resp = some .ok) ∧
      (t.mode = .done → t.bitCnt = 0#5 ∧ t.resp = some .ok) ∧
      (t.mode = .error → t.bitCnt = 0#5 ∧ t.err = .badCode ∧ t.resp = some .fault) ∧
      t.mode ≠ .uninit

/-- R196: the mode transition table, row by row. -/
def Obligations.ModeTransitionsFollowTheTable : Prop :=
  ∀ (s t : State) (i : Instr), i.isCommand = true → exec i s = .next t →
    (refusedIn s i → t.mode = s.mode) ∧
    (¬refusedIn s i →
      (∀ zero order n, i = .init zero order n → t.mode = .run) ∧
      (∀ x, i = .deinit x → t.mode = .uninit) ∧
      (∀ x, i = .reset x → t.mode = s.mode) ∧
      (∀ b, i = .push b →
        (s.mode = .done → t.mode = .done) ∧
        (s.mode = .run → t.mode = .run ∨ t.mode = .done ∨ t.mode = .error)))

/-- R188: in `ERROR` only INIT and DEINIT have an effect, and they are the ways out. -/
def Obligations.ErrorIsStickyUntilInitOrDeinit : Prop :=
  ∀ s : State, s.mode = .error →
    (∀ i : Instr, i.isCommand = true → (∀ zero order n, i ≠ .init zero order n) → (∀ x, i ≠ .deinit x) →
      exec i s = .next { s with resp := some .refused, outEarlier := s.outEarlier ++ s.cmdOut, cmdOut := [] }) ∧
    (∀ (order : Order) (n : BitVec 4), 1 ≤ n.toNat → n.toNat ≤ s.maxw.bits - 1 →
      ∃ t, exec (.init 0#3 order n) s = .next t ∧ t.mode = .run ∧ t.err = .none) ∧
    (∀ x : BitVec 8, ∃ t, exec (.deinit x) s = .next t ∧ t.mode = .uninit ∧ t.err = .none)

/-! ## Whole-machine rules -/

/-- The invariant holds after power-on. -/
def Obligations.ResetMeetsTheInvariant : Prop := ∀ m : MaxWidth, Inv (State.resetAt m)

/-- R36: every step, whatever input it serves, keeps the invariant. -/
def Obligations.EveryStepKeepsTheInvariant : Prop :=
  ∀ s t : State, Inv s → step s = .next t → Inv t

/-- From a state that meets the invariant no step stops: none of the model's named stops can be reached. -/
def Obligations.NoStepStopsUnderTheInvariant : Prop :=
  ∀ s : State, Inv s → ∃ t, step s = .next t

/-- R7: `MAXW` is an argument of the machine: no step changes it, and no instruction does. -/
def Obligations.MaxWidthIsConstant : Prop :=
  (∀ s t : State, step s = .next t → t.maxw = s.maxw) ∧
  ∀ (s t : State) (i : Instr), exec i s = .next t → t.maxw = s.maxw

/-- The dictionary keeps its canonical form in every step, from every state. -/
def Obligations.EveryStepKeepsTheDictionaryCanonical : Prop :=
  ∀ s t : State, Memory.wf s.maxw s.dict → step s = .next t → Memory.wf t.maxw t.dict

/-- R21, R23, R28, R154: no code, no PUSH and no RESET writes the session constants. -/
def Obligations.OnlyInitAndDeinitWriteTheSessionConstants : Prop :=
  ∀ (s t : State) (i : Instr), exec i s = .next t → (∀ zero order n, i ≠ .init zero order n) → (∀ x, i ≠ .deinit x) →
    t.n = s.n ∧ t.order = s.order ∧ t.clearCode = s.clearCode ∧ t.endInfoCode = s.endInfoCode

/-- R51: a value, once written, is never modified; only the clear code, among the codes, deletes it. -/
def Obligations.EntriesNeverChangeUntilCleared : Prop :=
  ∀ (s t : State) (i : Instr) (a : Nat) (v : Entry), Session s → i.isCommand = false → i ≠ .clear →
    exec i s = .next t → dictRead s a = some v → dictRead t a = some v

/-- R58: `OUT` is only ever appended to. -/
def Obligations.OutputIsOnlyAppendedTo : Prop :=
  ∀ s t : State, step s = .next t → ∃ more, outStream t = outStream s ++ more

/-- R90: only a PUSH in `RUN` can deliver bytes. -/
def Obligations.OnlyARunningPushDeliversBytes : Prop :=
  ∀ (s t : State) (i : Instr), i.isCommand = true → exec i s = .next t → (∀ b, i = .push b → s.mode ≠ .run) →
    t.cmdOut = [] ∧ outStream t = outStream s

/-- R34: the five words of the status port, field by field, in words of 32 bits (the model's width, log 7). That the gap of
CODES between its two fields reads 0 is the model's choice (log 12), and so is where the fields lie if `MAXW = 13`
(log 13). -/
def Obligations.StatusPortLayout : Prop :=
  ∀ s : State,
    (statusWord .status s).extractLsb' 0 2 =
      (match s.mode with | .uninit => 0#2 | .run => 1#2 | .done => 2#2 | .error => 3#2) ∧
    (statusWord .status s).extractLsb' 2 2 =
      (match s.err with | .none => 0#2 | .badCode => 1#2 | .allocFail => 2#2 | .reserved => 3#2) ∧
    (statusWord .status s).extractLsb' 19 13 = 0#13 ∧
    (statusWord .nextCode s).toNat < 2 ^ s.maxw.codeBits ∧
    (statusWord .prevCode s).toNat < 2 ^ s.maxw.codeBits ∧
    (statusWord .bitBuf s).toNat < 2 ^ s.maxw.bufBits ∧
    (statusWord .codes s).toNat % 2 ^ 16 < 2 ^ s.maxw.codeBits ∧
    (statusWord .codes s).toNat / 2 ^ 16 < 2 ^ s.maxw.codeBits ∧
    (s.mode ≠ .uninit →
      (statusWord .status s).extractLsb' 4 1 = (if s.prevCode = none then 0#1 else 1#1) ∧
      (statusWord .status s).extractLsb' 5 1 = (match s.order with | .lsb => 0#1 | .msb => 1#1) ∧
      (statusWord .status s).extractLsb' 6 4 = s.n ∧
      (statusWord .status s).extractLsb' 10 4 = s.codeSize ∧
      (statusWord .status s).extractLsb' 14 5 = s.bitCnt ∧
      (WithinWidths s →
        (statusWord .nextCode s).toNat = s.nextCode.toNat ∧
        (∀ c, s.prevCode = some c → (statusWord .prevCode s).toNat = c.toNat) ∧
        (statusWord .bitBuf s).toNat = s.bitBuf.toNat ∧
        (statusWord .codes s).toNat % 2 ^ 16 = s.clearCode.toNat ∧
        (statusWord .codes s).toNat / 2 ^ 16 = s.endInfoCode.toNat))

/-- R210, U7: before INIT no command reads an unspecified field: two uninitialised states answer every command alike, and
once a session runs they are one state. -/
def Obligations.UnspecifiedFieldsAreNeverRead : Prop :=
  ∀ (s₁ s₂ : State) (i : Instr), s₁.maxw = s₂.maxw → s₁.mode = .uninit → s₂.mode = .uninit →
    s₁.err = s₂.err → i.isCommand = true →
    ∃ t₁ t₂, exec i s₁ = .next t₁ ∧ exec i s₂ = .next t₂ ∧ t₁.mode = t₂.mode ∧ t₁.err = t₂.err ∧
      t₁.resp = t₂.resp ∧ t₁.cmdOut = [] ∧ t₂.cmdOut = [] ∧ (t₁.mode ≠ .uninit → SameCore t₁ t₂)

/-- R107: chunked equivalence. Decoding `x ++ y` leaves the same state and the same `OUT` as decoding `x` and then `y`. -/
def Obligations.ChunkBoundariesDoNotMatter : Prop :=
  ∀ (x y : List Byte) (s : State),
    mapNext settled (decodeChunk (x ++ y) s) = mapNext settled (andThen (decodeChunk x s) (decodeChunk y))

/-- R60, R73, R74, R106: pushing bytes one at a time executes the codes of the one unsplit bit stream, however the codes lie
across the bytes; what is left of the stream is what the accumulator holds. -/
def Obligations.PushingBytesDecodesTheBitStream : Prop :=
  ∀ (s : State) (bytes : List Byte), Inv s → s.mode = .run → s.bitCnt.toNat ≤ s.codeSize.toNat →
    ∃ t rest u, decodeChunk bytes s = .next t ∧
      StreamRun (heldBits s ++ bytes.flatMap (bitsOfByte s.order)) (bare s) rest u ∧
      bare u = bare t ∧ (t.mode = .run → rest = heldBits t)
end

