-- ==== Sys2Proof/Laws/Config.lean ====
section
/-! SUPPORT. The bounds of `MAXW` and of the widths made from it (rules R7, R20). -/

namespace Sys2Proof

theorem MaxWidth.bits_cases (m : MaxWidth) : m.bits = 12 ∨ m.bits = 13 := by cases m <;> simp [MaxWidth.bits]

theorem MaxWidth.bits_le (m : MaxWidth) : m.bits ≤ 13 := by rcases m.bits_cases with h | h <;> omega

theorem MaxWidth.bits_ge (m : MaxWidth) : 12 ≤ m.bits := by rcases m.bits_cases with h | h <;> omega

theorem MaxWidth.bits_pos (m : MaxWidth) : 0 < m.bits := by rcases m.bits_cases with h | h <;> omega

/-- A code-typed register fits the room it is held in. -/
theorem MaxWidth.codeBits_le (m : MaxWidth) : m.codeBits ≤ Config.codeRoom := by
  have := m.bits_le
  unfold MaxWidth.codeBits Config.codeRoom; omega

/-- `BITBUF` fits the room it is held in. -/
theorem MaxWidth.bufBits_le (m : MaxWidth) : m.bufBits ≤ Config.bufRoom := by
  have := m.bits_le
  unfold MaxWidth.bufBits Config.bufRoom; omega

end Sys2Proof
end

