-- ==== Sys2Proof/Laws/Memory.lean ====
section
/-! SUPPORT. The laws of the dictionary: read after write, the root entries, and that every operation keeps the canonical
form. -/

namespace Sys2Proof.Machine

@[simp] theorem Memory.lookup_insert_same (m : Memory) (c : Nat) (v : Entry) :
    Memory.lookup (Memory.insert m c v) c = some v := by
  induction m with
  | nil => simp [Memory.insert, Memory.lookup]
  | cons p m ih =>
    obtain ⟨k, x⟩ := p
    simp only [Memory.insert]
    split
    · simp [Memory.lookup]
    · split
      · simp [Memory.lookup]
      · rename_i h1 h2
        simp [Memory.lookup, Ne.symm h2, ih]

theorem Memory.lookup_insert_other (m : Memory) {c a : Nat} (v : Entry) (h : a ≠ c) :
    Memory.lookup (Memory.insert m c v) a = Memory.lookup m a := by
  induction m with
  | nil => simp [Memory.insert, Memory.lookup, Ne.symm h]
  | cons p m ih =>
    obtain ⟨k, x⟩ := p
    simp only [Memory.insert]
    split
    · simp [Memory.lookup, Ne.symm h]
    · split
      · rename_i h1 h2
        subst h2
        simp [Memory.lookup, Ne.symm h]
      · simp [Memory.lookup, ih]

/-- A slot that was written reads what was written (R53). -/
theorem Memory.read_write_same {m : MaxWidth} (d : Memory) {c : Nat} (v : Entry) (h : c < m.slots) :
    Memory.read m (Memory.write m d c v) c = some v := by
  simp only [Memory.read, Memory.write, if_pos h, Memory.lookup_insert_same]

/-- A write leaves every other slot alone (R53). -/
theorem Memory.read_write_other (m : MaxWidth) (d : Memory) {c a : Nat} (v : Entry) (h : a ≠ c) :
    Memory.read m (Memory.write m d c v) a = Memory.read m d a := by
  unfold Memory.read Memory.write
  by_cases hc : c < m.slots
  · rw [if_pos hc, Memory.lookup_insert_other _ _ h]
  · rw [if_neg hc]

@[simp] theorem Memory.read_nil (m : MaxWidth) (c : Nat) : Memory.read m [] c = none := by
  simp [Memory.read, Memory.lookup]

/-- A slot that reads a value exists (R50, R52). -/
theorem Memory.read_lt {m : MaxWidth} {d : Memory} {c : Nat} {v : Entry} (h : Memory.read m d c = some v) : c < m.slots := by
  unfold Memory.read at h
  split at h
  · assumption
  · cases h

theorem Memory.lookup_map_range' (f : Nat → Entry) (c : Nat) (start len : Nat) :
    Memory.lookup ((List.range' start len).map fun k => (k, f k)) c
      = if start ≤ c ∧ c < start + len then some (f c) else none := by
  induction len generalizing start with
  | zero => rw [if_neg (by omega)]; rfl
  | succ len ih =>
    simp only [List.range'_succ, List.map_cons, Memory.lookup]
    split
    · rename_i h; subst h; simp
    · rename_i h
      rw [ih]
      congr 1
      simp only [eq_iff_iff]
      omega

/-- The dictionary of root entries reads `[low8(c)]` below `count` and nothing elsewhere (R122). -/
theorem Memory.read_roots (m : MaxWidth) (count c : Nat) :
    Memory.read m (Memory.roots m count) c
      = if c < count ∧ c < m.slots then some (Entry.single (low8 c)) else none := by
  unfold Memory.read Memory.roots
  rw [List.range_eq_range', Memory.lookup_map_range' (fun k => Entry.single (low8 k))]
  by_cases h : c < m.slots
  · rw [if_pos h]
    congr 1
    simp only [eq_iff_iff]
    omega
  · rw [if_neg h, if_neg (by omega)]

/-! ## The canonical form -/

theorem Memory.wf_nil (m : MaxWidth) : Memory.wf m [] := by simp [Memory.wf]

theorem Memory.mem_insert {m : Memory} {c : Nat} {v : Entry} {p : Nat × Entry}
    (h : p ∈ Memory.insert m c v) : p = (c, v) ∨ p ∈ m := by
  induction m with
  | nil => simpa [Memory.insert] using h
  | cons q m ih =>
    obtain ⟨k, x⟩ := q
    simp only [Memory.insert] at h
    split at h
    · simpa using h
    · split at h
      · simp only [List.mem_cons] at h ⊢; tauto
      · simp only [List.mem_cons] at h ⊢
        rcases h with h | h
        · tauto
        · rcases ih h with h | h <;> tauto

theorem Memory.pairwise_insert {m : Memory} (c : Nat) (v : Entry) (h : m.Pairwise (fun p q => p.1 < q.1)) :
    (Memory.insert m c v).Pairwise (fun p q => p.1 < q.1) := by
  induction m with
  | nil => simp [Memory.insert]
  | cons q m ih =>
    obtain ⟨k, x⟩ := q
    rw [List.pairwise_cons] at h
    obtain ⟨hk, hm⟩ := h
    simp only [Memory.insert]
    split
    · rename_i hc
      refine List.pairwise_cons.2 ⟨fun p hp => ?_, List.pairwise_cons.2 ⟨hk, hm⟩⟩
      rcases List.mem_cons.1 hp with rfl | hp
      · exact hc
      · exact Nat.lt_trans hc (hk p hp)
    · split
      · rename_i hck; subst hck
        exact List.pairwise_cons.2 ⟨hk, hm⟩
      · refine List.pairwise_cons.2 ⟨fun p hp => ?_, ih hm⟩
        rcases Memory.mem_insert hp with rfl | hp
        · show k < c
          omega
        · exact hk p hp

/-- DictWrite keeps the canonical form. -/
theorem Memory.wf_write {m : MaxWidth} {d : Memory} (c : Nat) (v : Entry) (h : Memory.wf m d) :
    Memory.wf m (Memory.write m d c v) := by
  unfold Memory.write
  split
  · rename_i hc
    refine ⟨Memory.pairwise_insert c v h.1, fun p hp => ?_⟩
    rcases Memory.mem_insert hp with rfl | hp
    · exact hc
    · exact h.2 p hp
  · exact h

/-- The root entries are in canonical form. -/
theorem Memory.wf_roots (m : MaxWidth) (count : Nat) : Memory.wf m (Memory.roots m count) := by
  unfold Memory.roots
  refine ⟨?_, fun p hp => ?_⟩
  · rw [List.pairwise_map]
    exact List.pairwise_lt_range
  · simp only [List.mem_map, List.mem_range] at hp
    obtain ⟨a, ha, rfl⟩ := hp
    show a < m.slots
    omega

/-- A dictionary of which nothing is known is in canonical form (R210, log 4). -/
theorem Memory.wf_unspecified (m : MaxWidth) (k : Nat) : Memory.wf m (Memory.unspecified m k) := by
  unfold Memory.unspecified
  refine ⟨?_, fun p hp => ?_⟩
  · rw [List.pairwise_filterMap]
    refine List.Pairwise.imp ?_ List.pairwise_lt_range
    intro a b hab p hp q hq
    simp only [Option.map_eq_some_iff] at hp hq
    obtain ⟨x, -, rfl⟩ := hp
    obtain ⟨y, -, rfl⟩ := hq
    exact hab
  · rw [List.mem_filterMap] at hp
    obtain ⟨a, ha, h⟩ := hp
    rw [List.mem_range] at ha
    simp only [Option.map_eq_some_iff] at h
    obtain ⟨x, -, rfl⟩ := h
    exact ha

/-! ## Values -/

@[simp] theorem Entry.bytes_snoc (v : Entry) (b : Byte) : (v.snoc b).bytes = v.bytes ++ [b] := rfl
@[simp] theorem Entry.bytes_single (b : Byte) : (Entry.single b).bytes = [b] := rfl
@[simp] theorem Entry.length_snoc (v : Entry) (b : Byte) : (v.snoc b).length = v.length + 1 := by
  simp [Entry.snoc, Entry.length]
@[simp] theorem Entry.length_single (b : Byte) : (Entry.single b).length = 1 := rfl
@[simp] theorem Entry.first_snoc (v : Entry) (b : Byte) : (v.snoc b).first = v.first := rfl
@[simp] theorem Entry.first_single (b : Byte) : (Entry.single b).first = b := rfl

end Sys2Proof.Machine
end

