-- ==== Sys2Proof/Laws/State.lean ====
section
/-! SUPPORT. What each named update of the state does to each field: one lemma per field per update, so that no proof
unfolds a record update. -/

namespace Sys2Proof.Machine

/-! `dictWrite` -/

@[simp] theorem dictWrite_maxw (c : Nat) (v : Entry) (s : State) : (dictWrite c v s).maxw = s.maxw := rfl
@[simp] theorem dictWrite_n (c : Nat) (v : Entry) (s : State) : (dictWrite c v s).n = s.n := rfl
@[simp] theorem dictWrite_codeSize (c : Nat) (v : Entry) (s : State) : (dictWrite c v s).codeSize = s.codeSize := rfl
@[simp] theorem dictWrite_clearCode (c : Nat) (v : Entry) (s : State) : (dictWrite c v s).clearCode = s.clearCode := rfl
@[simp] theorem dictWrite_endInfoCode (c : Nat) (v : Entry) (s : State) : (dictWrite c v s).endInfoCode = s.endInfoCode := rfl
@[simp] theorem dictWrite_nextCode (c : Nat) (v : Entry) (s : State) : (dictWrite c v s).nextCode = s.nextCode := rfl
@[simp] theorem dictWrite_prevCode (c : Nat) (v : Entry) (s : State) : (dictWrite c v s).prevCode = s.prevCode := rfl
@[simp] theorem dictWrite_dict (c : Nat) (v : Entry) (s : State) : (dictWrite c v s).dict = Memory.write s.maxw s.dict c v := rfl
@[simp] theorem dictWrite_bitBuf (c : Nat) (v : Entry) (s : State) : (dictWrite c v s).bitBuf = s.bitBuf := rfl
@[simp] theorem dictWrite_bitCnt (c : Nat) (v : Entry) (s : State) : (dictWrite c v s).bitCnt = s.bitCnt := rfl
@[simp] theorem dictWrite_order (c : Nat) (v : Entry) (s : State) : (dictWrite c v s).order = s.order := rfl
@[simp] theorem dictWrite_mode (c : Nat) (v : Entry) (s : State) : (dictWrite c v s).mode = s.mode := rfl
@[simp] theorem dictWrite_err (c : Nat) (v : Entry) (s : State) : (dictWrite c v s).err = s.err := rfl
@[simp] theorem dictWrite_inputs (c : Nat) (v : Entry) (s : State) : (dictWrite c v s).inputs = s.inputs := rfl
@[simp] theorem dictWrite_resp (c : Nat) (v : Entry) (s : State) : (dictWrite c v s).resp = s.resp := rfl
@[simp] theorem dictWrite_outEarlier (c : Nat) (v : Entry) (s : State) : (dictWrite c v s).outEarlier = s.outEarlier := rfl
@[simp] theorem dictWrite_cmdOut (c : Nat) (v : Entry) (s : State) : (dictWrite c v s).cmdOut = s.cmdOut := rfl
@[simp] theorem dictWrite_statusOut (c : Nat) (v : Entry) (s : State) : (dictWrite c v s).statusOut = s.statusOut := rfl
@[simp] theorem dictWrite_freeCtr (c : Nat) (v : Entry) (s : State) : (dictWrite c v s).freeCtr = s.freeCtr := rfl

/-! `setPrevCode` -/

@[simp] theorem setPrevCode_maxw (c : Code) (s : State) : (setPrevCode c s).maxw = s.maxw := rfl
@[simp] theorem setPrevCode_n (c : Code) (s : State) : (setPrevCode c s).n = s.n := rfl
@[simp] theorem setPrevCode_codeSize (c : Code) (s : State) : (setPrevCode c s).codeSize = s.codeSize := rfl
@[simp] theorem setPrevCode_clearCode (c : Code) (s : State) : (setPrevCode c s).clearCode = s.clearCode := rfl
@[simp] theorem setPrevCode_endInfoCode (c : Code) (s : State) : (setPrevCode c s).endInfoCode = s.endInfoCode := rfl
@[simp] theorem setPrevCode_nextCode (c : Code) (s : State) : (setPrevCode c s).nextCode = s.nextCode := rfl
@[simp] theorem setPrevCode_prevCode (c : Code) (s : State) : (setPrevCode c s).prevCode = some c := rfl
@[simp] theorem setPrevCode_dict (c : Code) (s : State) : (setPrevCode c s).dict = s.dict := rfl
@[simp] theorem setPrevCode_bitBuf (c : Code) (s : State) : (setPrevCode c s).bitBuf = s.bitBuf := rfl
@[simp] theorem setPrevCode_bitCnt (c : Code) (s : State) : (setPrevCode c s).bitCnt = s.bitCnt := rfl
@[simp] theorem setPrevCode_order (c : Code) (s : State) : (setPrevCode c s).order = s.order := rfl
@[simp] theorem setPrevCode_mode (c : Code) (s : State) : (setPrevCode c s).mode = s.mode := rfl
@[simp] theorem setPrevCode_err (c : Code) (s : State) : (setPrevCode c s).err = s.err := rfl
@[simp] theorem setPrevCode_inputs (c : Code) (s : State) : (setPrevCode c s).inputs = s.inputs := rfl
@[simp] theorem setPrevCode_resp (c : Code) (s : State) : (setPrevCode c s).resp = s.resp := rfl
@[simp] theorem setPrevCode_outEarlier (c : Code) (s : State) : (setPrevCode c s).outEarlier = s.outEarlier := rfl
@[simp] theorem setPrevCode_cmdOut (c : Code) (s : State) : (setPrevCode c s).cmdOut = s.cmdOut := rfl
@[simp] theorem setPrevCode_statusOut (c : Code) (s : State) : (setPrevCode c s).statusOut = s.statusOut := rfl
@[simp] theorem setPrevCode_freeCtr (c : Code) (s : State) : (setPrevCode c s).freeCtr = s.freeCtr := rfl

/-! `resetProc` -/

@[simp] theorem resetProc_maxw (s : State) : (resetProc s).maxw = s.maxw := rfl
@[simp] theorem resetProc_n (s : State) : (resetProc s).n = s.n := rfl
@[simp] theorem resetProc_codeSize (s : State) : (resetProc s).codeSize = s.n := rfl
@[simp] theorem resetProc_clearCode (s : State) : (resetProc s).clearCode = s.clearCode := rfl
@[simp] theorem resetProc_endInfoCode (s : State) : (resetProc s).endInfoCode = s.endInfoCode := rfl
@[simp] theorem resetProc_nextCode (s : State) : (resetProc s).nextCode = codeReg s.maxw (s.clearCode.toNat + 2) := rfl
@[simp] theorem resetProc_prevCode (s : State) : (resetProc s).prevCode = s.prevCode := rfl
@[simp] theorem resetProc_dict (s : State) : (resetProc s).dict = Memory.roots s.maxw (2 ^ s.n.toNat) := rfl
@[simp] theorem resetProc_bitBuf (s : State) : (resetProc s).bitBuf = s.bitBuf := rfl
@[simp] theorem resetProc_bitCnt (s : State) : (resetProc s).bitCnt = s.bitCnt := rfl
@[simp] theorem resetProc_order (s : State) : (resetProc s).order = s.order := rfl
@[simp] theorem resetProc_mode (s : State) : (resetProc s).mode = s.mode := rfl
@[simp] theorem resetProc_err (s : State) : (resetProc s).err = s.err := rfl
@[simp] theorem resetProc_inputs (s : State) : (resetProc s).inputs = s.inputs := rfl
@[simp] theorem resetProc_resp (s : State) : (resetProc s).resp = s.resp := rfl
@[simp] theorem resetProc_outEarlier (s : State) : (resetProc s).outEarlier = s.outEarlier := rfl
@[simp] theorem resetProc_cmdOut (s : State) : (resetProc s).cmdOut = s.cmdOut := rfl
@[simp] theorem resetProc_statusOut (s : State) : (resetProc s).statusOut = s.statusOut := rfl
@[simp] theorem resetProc_freeCtr (s : State) : (resetProc s).freeCtr = s.freeCtr := rfl

/-! `dropBits` -/

@[simp] theorem dropBits_maxw (s : State) : (dropBits s).maxw = s.maxw := rfl
@[simp] theorem dropBits_n (s : State) : (dropBits s).n = s.n := rfl
@[simp] theorem dropBits_codeSize (s : State) : (dropBits s).codeSize = s.codeSize := rfl
@[simp] theorem dropBits_clearCode (s : State) : (dropBits s).clearCode = s.clearCode := rfl
@[simp] theorem dropBits_endInfoCode (s : State) : (dropBits s).endInfoCode = s.endInfoCode := rfl
@[simp] theorem dropBits_nextCode (s : State) : (dropBits s).nextCode = s.nextCode := rfl
@[simp] theorem dropBits_prevCode (s : State) : (dropBits s).prevCode = s.prevCode := rfl
@[simp] theorem dropBits_dict (s : State) : (dropBits s).dict = s.dict := rfl
@[simp] theorem dropBits_bitBuf (s : State) : (dropBits s).bitBuf = 0#Config.bufRoom := rfl
@[simp] theorem dropBits_bitCnt (s : State) : (dropBits s).bitCnt = 0#5 := rfl
@[simp] theorem dropBits_order (s : State) : (dropBits s).order = s.order := rfl
@[simp] theorem dropBits_mode (s : State) : (dropBits s).mode = s.mode := rfl
@[simp] theorem dropBits_err (s : State) : (dropBits s).err = s.err := rfl
@[simp] theorem dropBits_inputs (s : State) : (dropBits s).inputs = s.inputs := rfl
@[simp] theorem dropBits_resp (s : State) : (dropBits s).resp = s.resp := rfl
@[simp] theorem dropBits_outEarlier (s : State) : (dropBits s).outEarlier = s.outEarlier := rfl
@[simp] theorem dropBits_cmdOut (s : State) : (dropBits s).cmdOut = s.cmdOut := rfl
@[simp] theorem dropBits_statusOut (s : State) : (dropBits s).statusOut = s.statusOut := rfl
@[simp] theorem dropBits_freeCtr (s : State) : (dropBits s).freeCtr = s.freeCtr := rfl

/-! `raiseFault` -/

@[simp] theorem raiseFault_maxw (e : Err) (s : State) : (raiseFault e s).maxw = s.maxw := rfl
@[simp] theorem raiseFault_n (e : Err) (s : State) : (raiseFault e s).n = s.n := rfl
@[simp] theorem raiseFault_codeSize (e : Err) (s : State) : (raiseFault e s).codeSize = s.codeSize := rfl
@[simp] theorem raiseFault_clearCode (e : Err) (s : State) : (raiseFault e s).clearCode = s.clearCode := rfl
@[simp] theorem raiseFault_endInfoCode (e : Err) (s : State) : (raiseFault e s).endInfoCode = s.endInfoCode := rfl
@[simp] theorem raiseFault_nextCode (e : Err) (s : State) : (raiseFault e s).nextCode = s.nextCode := rfl
@[simp] theorem raiseFault_prevCode (e : Err) (s : State) : (raiseFault e s).prevCode = s.prevCode := rfl
@[simp] theorem raiseFault_dict (e : Err) (s : State) : (raiseFault e s).dict = s.dict := rfl
@[simp] theorem raiseFault_bitBuf (e : Err) (s : State) : (raiseFault e s).bitBuf = 0#Config.bufRoom := rfl
@[simp] theorem raiseFault_bitCnt (e : Err) (s : State) : (raiseFault e s).bitCnt = 0#5 := rfl
@[simp] theorem raiseFault_order (e : Err) (s : State) : (raiseFault e s).order = s.order := rfl
@[simp] theorem raiseFault_mode (e : Err) (s : State) : (raiseFault e s).mode = .error := rfl
@[simp] theorem raiseFault_err (e : Err) (s : State) : (raiseFault e s).err = e := rfl
@[simp] theorem raiseFault_inputs (e : Err) (s : State) : (raiseFault e s).inputs = s.inputs := rfl
@[simp] theorem raiseFault_resp (e : Err) (s : State) : (raiseFault e s).resp = s.resp := rfl
@[simp] theorem raiseFault_outEarlier (e : Err) (s : State) : (raiseFault e s).outEarlier = s.outEarlier := rfl
@[simp] theorem raiseFault_cmdOut (e : Err) (s : State) : (raiseFault e s).cmdOut = s.cmdOut := rfl
@[simp] theorem raiseFault_statusOut (e : Err) (s : State) : (raiseFault e s).statusOut = s.statusOut := rfl
@[simp] theorem raiseFault_freeCtr (e : Err) (s : State) : (raiseFault e s).freeCtr = s.freeCtr := rfl

/-! `forgetRegisters` -/

@[simp] theorem forgetRegisters_maxw (s : State) : (forgetRegisters s).maxw = s.maxw := rfl
@[simp] theorem forgetRegisters_n (s : State) : (forgetRegisters s).n = Config.freeN s.freeCtr := rfl
@[simp] theorem forgetRegisters_codeSize (s : State) : (forgetRegisters s).codeSize = Config.freeCodeSize s.freeCtr := rfl
@[simp] theorem forgetRegisters_clearCode (s : State) : (forgetRegisters s).clearCode = codeReg s.maxw (Config.freeClearCode s.freeCtr).toNat := rfl
@[simp] theorem forgetRegisters_endInfoCode (s : State) : (forgetRegisters s).endInfoCode = codeReg s.maxw (Config.freeEndInfoCode s.freeCtr).toNat := rfl
@[simp] theorem forgetRegisters_nextCode (s : State) : (forgetRegisters s).nextCode = codeReg s.maxw (Config.freeNextCode s.freeCtr).toNat := rfl
@[simp] theorem forgetRegisters_prevCode (s : State) : (forgetRegisters s).prevCode = (Config.freePrevCode s.freeCtr).map (fun c => codeReg s.maxw c.toNat) := rfl
@[simp] theorem forgetRegisters_dict (s : State) : (forgetRegisters s).dict = s.dict := rfl
@[simp] theorem forgetRegisters_bitBuf (s : State) : (forgetRegisters s).bitBuf = bufReg s.maxw (Config.freeBitBuf s.freeCtr).toNat := rfl
@[simp] theorem forgetRegisters_bitCnt (s : State) : (forgetRegisters s).bitCnt = Config.freeBitCnt s.freeCtr := rfl
@[simp] theorem forgetRegisters_order (s : State) : (forgetRegisters s).order = Order.ofBit (Config.freeOrder s.freeCtr) := rfl
@[simp] theorem forgetRegisters_mode (s : State) : (forgetRegisters s).mode = s.mode := rfl
@[simp] theorem forgetRegisters_err (s : State) : (forgetRegisters s).err = s.err := rfl
@[simp] theorem forgetRegisters_inputs (s : State) : (forgetRegisters s).inputs = s.inputs := rfl
@[simp] theorem forgetRegisters_resp (s : State) : (forgetRegisters s).resp = s.resp := rfl
@[simp] theorem forgetRegisters_outEarlier (s : State) : (forgetRegisters s).outEarlier = s.outEarlier := rfl
@[simp] theorem forgetRegisters_cmdOut (s : State) : (forgetRegisters s).cmdOut = s.cmdOut := rfl
@[simp] theorem forgetRegisters_statusOut (s : State) : (forgetRegisters s).statusOut = s.statusOut := rfl
@[simp] theorem forgetRegisters_freeCtr (s : State) : (forgetRegisters s).freeCtr = s.freeCtr + 1 := rfl

/-! `emit` -/

@[simp] theorem emit_maxw (v : Entry) (s : State) : (emit v s).maxw = s.maxw := rfl
@[simp] theorem emit_n (v : Entry) (s : State) : (emit v s).n = s.n := rfl
@[simp] theorem emit_codeSize (v : Entry) (s : State) : (emit v s).codeSize = s.codeSize := rfl
@[simp] theorem emit_clearCode (v : Entry) (s : State) : (emit v s).clearCode = s.clearCode := rfl
@[simp] theorem emit_endInfoCode (v : Entry) (s : State) : (emit v s).endInfoCode = s.endInfoCode := rfl
@[simp] theorem emit_nextCode (v : Entry) (s : State) : (emit v s).nextCode = s.nextCode := rfl
@[simp] theorem emit_prevCode (v : Entry) (s : State) : (emit v s).prevCode = s.prevCode := rfl
@[simp] theorem emit_dict (v : Entry) (s : State) : (emit v s).dict = s.dict := rfl
@[simp] theorem emit_bitBuf (v : Entry) (s : State) : (emit v s).bitBuf = s.bitBuf := rfl
@[simp] theorem emit_bitCnt (v : Entry) (s : State) : (emit v s).bitCnt = s.bitCnt := rfl
@[simp] theorem emit_order (v : Entry) (s : State) : (emit v s).order = s.order := rfl
@[simp] theorem emit_mode (v : Entry) (s : State) : (emit v s).mode = s.mode := rfl
@[simp] theorem emit_err (v : Entry) (s : State) : (emit v s).err = s.err := rfl
@[simp] theorem emit_inputs (v : Entry) (s : State) : (emit v s).inputs = s.inputs := rfl
@[simp] theorem emit_resp (v : Entry) (s : State) : (emit v s).resp = s.resp := rfl
@[simp] theorem emit_outEarlier (v : Entry) (s : State) : (emit v s).outEarlier = s.outEarlier := rfl
@[simp] theorem emit_cmdOut (v : Entry) (s : State) : (emit v s).cmdOut = s.cmdOut ++ v.bytes := rfl
@[simp] theorem emit_statusOut (v : Entry) (s : State) : (emit v s).statusOut = s.statusOut := rfl
@[simp] theorem emit_freeCtr (v : Entry) (s : State) : (emit v s).freeCtr = s.freeCtr := rfl

/-! `beginCommand` -/

@[simp] theorem beginCommand_maxw (s : State) : (beginCommand s).maxw = s.maxw := rfl
@[simp] theorem beginCommand_n (s : State) : (beginCommand s).n = s.n := rfl
@[simp] theorem beginCommand_codeSize (s : State) : (beginCommand s).codeSize = s.codeSize := rfl
@[simp] theorem beginCommand_clearCode (s : State) : (beginCommand s).clearCode = s.clearCode := rfl
@[simp] theorem beginCommand_endInfoCode (s : State) : (beginCommand s).endInfoCode = s.endInfoCode := rfl
@[simp] theorem beginCommand_nextCode (s : State) : (beginCommand s).nextCode = s.nextCode := rfl
@[simp] theorem beginCommand_prevCode (s : State) : (beginCommand s).prevCode = s.prevCode := rfl
@[simp] theorem beginCommand_dict (s : State) : (beginCommand s).dict = s.dict := rfl
@[simp] theorem beginCommand_bitBuf (s : State) : (beginCommand s).bitBuf = s.bitBuf := rfl
@[simp] theorem beginCommand_bitCnt (s : State) : (beginCommand s).bitCnt = s.bitCnt := rfl
@[simp] theorem beginCommand_order (s : State) : (beginCommand s).order = s.order := rfl
@[simp] theorem beginCommand_mode (s : State) : (beginCommand s).mode = s.mode := rfl
@[simp] theorem beginCommand_err (s : State) : (beginCommand s).err = s.err := rfl
@[simp] theorem beginCommand_inputs (s : State) : (beginCommand s).inputs = s.inputs := rfl
@[simp] theorem beginCommand_resp (s : State) : (beginCommand s).resp = s.resp := rfl
@[simp] theorem beginCommand_outEarlier (s : State) : (beginCommand s).outEarlier = s.outEarlier ++ s.cmdOut := rfl
@[simp] theorem beginCommand_cmdOut (s : State) : (beginCommand s).cmdOut = [] := rfl
@[simp] theorem beginCommand_statusOut (s : State) : (beginCommand s).statusOut = s.statusOut := rfl
@[simp] theorem beginCommand_freeCtr (s : State) : (beginCommand s).freeCtr = s.freeCtr := rfl

/-! `respond` -/

@[simp] theorem respond_maxw (r : Resp) (s : State) : (respond r s).maxw = s.maxw := rfl
@[simp] theorem respond_n (r : Resp) (s : State) : (respond r s).n = s.n := rfl
@[simp] theorem respond_codeSize (r : Resp) (s : State) : (respond r s).codeSize = s.codeSize := rfl
@[simp] theorem respond_clearCode (r : Resp) (s : State) : (respond r s).clearCode = s.clearCode := rfl
@[simp] theorem respond_endInfoCode (r : Resp) (s : State) : (respond r s).endInfoCode = s.endInfoCode := rfl
@[simp] theorem respond_nextCode (r : Resp) (s : State) : (respond r s).nextCode = s.nextCode := rfl
@[simp] theorem respond_prevCode (r : Resp) (s : State) : (respond r s).prevCode = s.prevCode := rfl
@[simp] theorem respond_dict (r : Resp) (s : State) : (respond r s).dict = s.dict := rfl
@[simp] theorem respond_bitBuf (r : Resp) (s : State) : (respond r s).bitBuf = s.bitBuf := rfl
@[simp] theorem respond_bitCnt (r : Resp) (s : State) : (respond r s).bitCnt = s.bitCnt := rfl
@[simp] theorem respond_order (r : Resp) (s : State) : (respond r s).order = s.order := rfl
@[simp] theorem respond_mode (r : Resp) (s : State) : (respond r s).mode = s.mode := rfl
@[simp] theorem respond_err (r : Resp) (s : State) : (respond r s).err = s.err := rfl
@[simp] theorem respond_inputs (r : Resp) (s : State) : (respond r s).inputs = s.inputs := rfl
@[simp] theorem respond_resp (r : Resp) (s : State) : (respond r s).resp = some r := rfl
@[simp] theorem respond_outEarlier (r : Resp) (s : State) : (respond r s).outEarlier = s.outEarlier := rfl
@[simp] theorem respond_cmdOut (r : Resp) (s : State) : (respond r s).cmdOut = s.cmdOut := rfl
@[simp] theorem respond_statusOut (r : Resp) (s : State) : (respond r s).statusOut = s.statusOut := rfl
@[simp] theorem respond_freeCtr (r : Resp) (s : State) : (respond r s).freeCtr = s.freeCtr := rfl

/-! `refuse` -/

@[simp] theorem refuse_maxw (s : State) : (refuse s).maxw = s.maxw := rfl
@[simp] theorem refuse_n (s : State) : (refuse s).n = s.n := rfl
@[simp] theorem refuse_codeSize (s : State) : (refuse s).codeSize = s.codeSize := rfl
@[simp] theorem refuse_clearCode (s : State) : (refuse s).clearCode = s.clearCode := rfl
@[simp] theorem refuse_endInfoCode (s : State) : (refuse s).endInfoCode = s.endInfoCode := rfl
@[simp] theorem refuse_nextCode (s : State) : (refuse s).nextCode = s.nextCode := rfl
@[simp] theorem refuse_prevCode (s : State) : (refuse s).prevCode = s.prevCode := rfl
@[simp] theorem refuse_dict (s : State) : (refuse s).dict = s.dict := rfl
@[simp] theorem refuse_bitBuf (s : State) : (refuse s).bitBuf = s.bitBuf := rfl
@[simp] theorem refuse_bitCnt (s : State) : (refuse s).bitCnt = s.bitCnt := rfl
@[simp] theorem refuse_order (s : State) : (refuse s).order = s.order := rfl
@[simp] theorem refuse_mode (s : State) : (refuse s).mode = s.mode := rfl
@[simp] theorem refuse_err (s : State) : (refuse s).err = s.err := rfl
@[simp] theorem refuse_inputs (s : State) : (refuse s).inputs = s.inputs := rfl
@[simp] theorem refuse_resp (s : State) : (refuse s).resp = some .refused := rfl
@[simp] theorem refuse_outEarlier (s : State) : (refuse s).outEarlier = s.outEarlier ++ s.cmdOut := rfl
@[simp] theorem refuse_cmdOut (s : State) : (refuse s).cmdOut = [] := rfl
@[simp] theorem refuse_statusOut (s : State) : (refuse s).statusOut = s.statusOut := rfl
@[simp] theorem refuse_freeCtr (s : State) : (refuse s).freeCtr = s.freeCtr := rfl

/-! `accumulate` -/

@[simp] theorem accumulate_maxw (b : Byte) (s : State) : (accumulate b s).maxw = s.maxw := rfl
@[simp] theorem accumulate_n (b : Byte) (s : State) : (accumulate b s).n = s.n := rfl
@[simp] theorem accumulate_codeSize (b : Byte) (s : State) : (accumulate b s).codeSize = s.codeSize := rfl
@[simp] theorem accumulate_clearCode (b : Byte) (s : State) : (accumulate b s).clearCode = s.clearCode := rfl
@[simp] theorem accumulate_endInfoCode (b : Byte) (s : State) : (accumulate b s).endInfoCode = s.endInfoCode := rfl
@[simp] theorem accumulate_nextCode (b : Byte) (s : State) : (accumulate b s).nextCode = s.nextCode := rfl
@[simp] theorem accumulate_prevCode (b : Byte) (s : State) : (accumulate b s).prevCode = s.prevCode := rfl
@[simp] theorem accumulate_dict (b : Byte) (s : State) : (accumulate b s).dict = s.dict := rfl
@[simp] theorem accumulate_bitCnt (b : Byte) (s : State) : (accumulate b s).bitCnt = BitVec.ofNat 5 (s.bitCnt.toNat + 8) := rfl
@[simp] theorem accumulate_order (b : Byte) (s : State) : (accumulate b s).order = s.order := rfl
@[simp] theorem accumulate_mode (b : Byte) (s : State) : (accumulate b s).mode = s.mode := rfl
@[simp] theorem accumulate_err (b : Byte) (s : State) : (accumulate b s).err = s.err := rfl
@[simp] theorem accumulate_inputs (b : Byte) (s : State) : (accumulate b s).inputs = s.inputs := rfl
@[simp] theorem accumulate_resp (b : Byte) (s : State) : (accumulate b s).resp = s.resp := rfl
@[simp] theorem accumulate_outEarlier (b : Byte) (s : State) : (accumulate b s).outEarlier = s.outEarlier := rfl
@[simp] theorem accumulate_cmdOut (b : Byte) (s : State) : (accumulate b s).cmdOut = s.cmdOut := rfl
@[simp] theorem accumulate_statusOut (b : Byte) (s : State) : (accumulate b s).statusOut = s.statusOut := rfl
@[simp] theorem accumulate_freeCtr (b : Byte) (s : State) : (accumulate b s).freeCtr = s.freeCtr := rfl

/-! `dropCode` -/

@[simp] theorem dropCode_maxw (w : Nat) (s : State) : (dropCode w s).maxw = s.maxw := rfl
@[simp] theorem dropCode_n (w : Nat) (s : State) : (dropCode w s).n = s.n := rfl
@[simp] theorem dropCode_codeSize (w : Nat) (s : State) : (dropCode w s).codeSize = s.codeSize := rfl
@[simp] theorem dropCode_clearCode (w : Nat) (s : State) : (dropCode w s).clearCode = s.clearCode := rfl
@[simp] theorem dropCode_endInfoCode (w : Nat) (s : State) : (dropCode w s).endInfoCode = s.endInfoCode := rfl
@[simp] theorem dropCode_nextCode (w : Nat) (s : State) : (dropCode w s).nextCode = s.nextCode := rfl
@[simp] theorem dropCode_prevCode (w : Nat) (s : State) : (dropCode w s).prevCode = s.prevCode := rfl
@[simp] theorem dropCode_dict (w : Nat) (s : State) : (dropCode w s).dict = s.dict := rfl
@[simp] theorem dropCode_bitCnt (w : Nat) (s : State) : (dropCode w s).bitCnt = BitVec.ofNat 5 (s.bitCnt.toNat - w) := rfl
@[simp] theorem dropCode_order (w : Nat) (s : State) : (dropCode w s).order = s.order := rfl
@[simp] theorem dropCode_mode (w : Nat) (s : State) : (dropCode w s).mode = s.mode := rfl
@[simp] theorem dropCode_err (w : Nat) (s : State) : (dropCode w s).err = s.err := rfl
@[simp] theorem dropCode_inputs (w : Nat) (s : State) : (dropCode w s).inputs = s.inputs := rfl
@[simp] theorem dropCode_resp (w : Nat) (s : State) : (dropCode w s).resp = s.resp := rfl
@[simp] theorem dropCode_outEarlier (w : Nat) (s : State) : (dropCode w s).outEarlier = s.outEarlier := rfl
@[simp] theorem dropCode_cmdOut (w : Nat) (s : State) : (dropCode w s).cmdOut = s.cmdOut := rfl
@[simp] theorem dropCode_statusOut (w : Nat) (s : State) : (dropCode w s).statusOut = s.statusOut := rfl
@[simp] theorem dropCode_freeCtr (w : Nat) (s : State) : (dropCode w s).freeCtr = s.freeCtr := rfl

/-! `addEntry` -/

@[simp] theorem addEntry_maxw (v : Entry) (s : State) : (addEntry v s).maxw = s.maxw := rfl
@[simp] theorem addEntry_n (v : Entry) (s : State) : (addEntry v s).n = s.n := rfl
@[simp] theorem addEntry_codeSize (v : Entry) (s : State) : (addEntry v s).codeSize = grownCodeSize (s.nextCode.toNat + 1) s := rfl
@[simp] theorem addEntry_clearCode (v : Entry) (s : State) : (addEntry v s).clearCode = s.clearCode := rfl
@[simp] theorem addEntry_endInfoCode (v : Entry) (s : State) : (addEntry v s).endInfoCode = s.endInfoCode := rfl
@[simp] theorem addEntry_nextCode (v : Entry) (s : State) : (addEntry v s).nextCode = codeReg s.maxw (s.nextCode.toNat + 1) := rfl
@[simp] theorem addEntry_prevCode (v : Entry) (s : State) : (addEntry v s).prevCode = s.prevCode := rfl
@[simp] theorem addEntry_dict (v : Entry) (s : State) : (addEntry v s).dict = Memory.write s.maxw s.dict s.nextCode.toNat v := rfl
@[simp] theorem addEntry_bitBuf (v : Entry) (s : State) : (addEntry v s).bitBuf = s.bitBuf := rfl
@[simp] theorem addEntry_bitCnt (v : Entry) (s : State) : (addEntry v s).bitCnt = s.bitCnt := rfl
@[simp] theorem addEntry_order (v : Entry) (s : State) : (addEntry v s).order = s.order := rfl
@[simp] theorem addEntry_mode (v : Entry) (s : State) : (addEntry v s).mode = s.mode := rfl
@[simp] theorem addEntry_err (v : Entry) (s : State) : (addEntry v s).err = s.err := rfl
@[simp] theorem addEntry_inputs (v : Entry) (s : State) : (addEntry v s).inputs = s.inputs := rfl
@[simp] theorem addEntry_resp (v : Entry) (s : State) : (addEntry v s).resp = s.resp := rfl
@[simp] theorem addEntry_outEarlier (v : Entry) (s : State) : (addEntry v s).outEarlier = s.outEarlier := rfl
@[simp] theorem addEntry_cmdOut (v : Entry) (s : State) : (addEntry v s).cmdOut = s.cmdOut := rfl
@[simp] theorem addEntry_statusOut (v : Entry) (s : State) : (addEntry v s).statusOut = s.statusOut := rfl
@[simp] theorem addEntry_freeCtr (v : Entry) (s : State) : (addEntry v s).freeCtr = s.freeCtr := rfl

/-! `extend` -/

@[simp] theorem extend_maxw (v : Entry) (s : State) : (extend v s).maxw = s.maxw := by unfold extend; split <;> rfl
@[simp] theorem extend_n (v : Entry) (s : State) : (extend v s).n = s.n := by unfold extend; split <;> rfl
@[simp] theorem extend_clearCode (v : Entry) (s : State) : (extend v s).clearCode = s.clearCode := by unfold extend; split <;> rfl
@[simp] theorem extend_endInfoCode (v : Entry) (s : State) : (extend v s).endInfoCode = s.endInfoCode := by unfold extend; split <;> rfl
@[simp] theorem extend_prevCode (v : Entry) (s : State) : (extend v s).prevCode = s.prevCode := by unfold extend; split <;> rfl
@[simp] theorem extend_bitBuf (v : Entry) (s : State) : (extend v s).bitBuf = s.bitBuf := by unfold extend; split <;> rfl
@[simp] theorem extend_bitCnt (v : Entry) (s : State) : (extend v s).bitCnt = s.bitCnt := by unfold extend; split <;> rfl
@[simp] theorem extend_order (v : Entry) (s : State) : (extend v s).order = s.order := by unfold extend; split <;> rfl
@[simp] theorem extend_mode (v : Entry) (s : State) : (extend v s).mode = s.mode := by unfold extend; split <;> rfl
@[simp] theorem extend_err (v : Entry) (s : State) : (extend v s).err = s.err := by unfold extend; split <;> rfl
@[simp] theorem extend_inputs (v : Entry) (s : State) : (extend v s).inputs = s.inputs := by unfold extend; split <;> rfl
@[simp] theorem extend_resp (v : Entry) (s : State) : (extend v s).resp = s.resp := by unfold extend; split <;> rfl
@[simp] theorem extend_outEarlier (v : Entry) (s : State) : (extend v s).outEarlier = s.outEarlier := by unfold extend; split <;> rfl
@[simp] theorem extend_cmdOut (v : Entry) (s : State) : (extend v s).cmdOut = s.cmdOut := by unfold extend; split <;> rfl
@[simp] theorem extend_statusOut (v : Entry) (s : State) : (extend v s).statusOut = s.statusOut := by unfold extend; split <;> rfl
@[simp] theorem extend_freeCtr (v : Entry) (s : State) : (extend v s).freeCtr = s.freeCtr := by unfold extend; split <;> rfl

/-! `extendFromPrev` -/

@[simp] theorem extendFromPrev_maxw (v : Entry) (s : State) : (extendFromPrev v s).maxw = s.maxw := by unfold extendFromPrev; split <;> simp
@[simp] theorem extendFromPrev_n (v : Entry) (s : State) : (extendFromPrev v s).n = s.n := by unfold extendFromPrev; split <;> simp
@[simp] theorem extendFromPrev_clearCode (v : Entry) (s : State) : (extendFromPrev v s).clearCode = s.clearCode := by unfold extendFromPrev; split <;> simp
@[simp] theorem extendFromPrev_endInfoCode (v : Entry) (s : State) : (extendFromPrev v s).endInfoCode = s.endInfoCode := by unfold extendFromPrev; split <;> simp
@[simp] theorem extendFromPrev_prevCode (v : Entry) (s : State) : (extendFromPrev v s).prevCode = s.prevCode := by unfold extendFromPrev; split <;> simp
@[simp] theorem extendFromPrev_bitBuf (v : Entry) (s : State) : (extendFromPrev v s).bitBuf = s.bitBuf := by unfold extendFromPrev; split <;> simp
@[simp] theorem extendFromPrev_bitCnt (v : Entry) (s : State) : (extendFromPrev v s).bitCnt = s.bitCnt := by unfold extendFromPrev; split <;> simp
@[simp] theorem extendFromPrev_order (v : Entry) (s : State) : (extendFromPrev v s).order = s.order := by unfold extendFromPrev; split <;> simp
@[simp] theorem extendFromPrev_mode (v : Entry) (s : State) : (extendFromPrev v s).mode = s.mode := by unfold extendFromPrev; split <;> simp
@[simp] theorem extendFromPrev_err (v : Entry) (s : State) : (extendFromPrev v s).err = s.err := by unfold extendFromPrev; split <;> simp
@[simp] theorem extendFromPrev_inputs (v : Entry) (s : State) : (extendFromPrev v s).inputs = s.inputs := by unfold extendFromPrev; split <;> simp
@[simp] theorem extendFromPrev_resp (v : Entry) (s : State) : (extendFromPrev v s).resp = s.resp := by unfold extendFromPrev; split <;> simp
@[simp] theorem extendFromPrev_outEarlier (v : Entry) (s : State) : (extendFromPrev v s).outEarlier = s.outEarlier := by unfold extendFromPrev; split <;> simp
@[simp] theorem extendFromPrev_cmdOut (v : Entry) (s : State) : (extendFromPrev v s).cmdOut = s.cmdOut := by unfold extendFromPrev; split <;> simp
@[simp] theorem extendFromPrev_statusOut (v : Entry) (s : State) : (extendFromPrev v s).statusOut = s.statusOut := by unfold extendFromPrev; split <;> simp
@[simp] theorem extendFromPrev_freeCtr (v : Entry) (s : State) : (extendFromPrev v s).freeCtr = s.freeCtr := by unfold extendFromPrev; split <;> simp

/-! `latchOperands` -/

@[simp] theorem latchOperands_maxw (o : Order) (n : BitVec 4) (s : State) : (latchOperands o n s).maxw = s.maxw := rfl
@[simp] theorem latchOperands_n (o : Order) (n : BitVec 4) (s : State) : (latchOperands o n s).n = n := rfl
@[simp] theorem latchOperands_codeSize (o : Order) (n : BitVec 4) (s : State) : (latchOperands o n s).codeSize = n := rfl
@[simp] theorem latchOperands_clearCode (o : Order) (n : BitVec 4) (s : State) : (latchOperands o n s).clearCode = codeReg s.maxw (2 ^ n.toNat) := rfl
@[simp] theorem latchOperands_endInfoCode (o : Order) (n : BitVec 4) (s : State) : (latchOperands o n s).endInfoCode = codeReg s.maxw (2 ^ n.toNat + 1) := rfl
@[simp] theorem latchOperands_nextCode (o : Order) (n : BitVec 4) (s : State) : (latchOperands o n s).nextCode = codeReg s.maxw (2 ^ n.toNat + 2) := rfl
@[simp] theorem latchOperands_prevCode (o : Order) (n : BitVec 4) (s : State) : (latchOperands o n s).prevCode = s.prevCode := rfl
@[simp] theorem latchOperands_dict (o : Order) (n : BitVec 4) (s : State) : (latchOperands o n s).dict = s.dict := rfl
@[simp] theorem latchOperands_bitBuf (o : Order) (n : BitVec 4) (s : State) : (latchOperands o n s).bitBuf = s.bitBuf := rfl
@[simp] theorem latchOperands_bitCnt (o : Order) (n : BitVec 4) (s : State) : (latchOperands o n s).bitCnt = s.bitCnt := rfl
@[simp] theorem latchOperands_order (o : Order) (n : BitVec 4) (s : State) : (latchOperands o n s).order = o := rfl
@[simp] theorem latchOperands_mode (o : Order) (n : BitVec 4) (s : State) : (latchOperands o n s).mode = s.mode := rfl
@[simp] theorem latchOperands_err (o : Order) (n : BitVec 4) (s : State) : (latchOperands o n s).err = s.err := rfl
@[simp] theorem latchOperands_inputs (o : Order) (n : BitVec 4) (s : State) : (latchOperands o n s).inputs = s.inputs := rfl
@[simp] theorem latchOperands_resp (o : Order) (n : BitVec 4) (s : State) : (latchOperands o n s).resp = s.resp := rfl
@[simp] theorem latchOperands_outEarlier (o : Order) (n : BitVec 4) (s : State) : (latchOperands o n s).outEarlier = s.outEarlier := rfl
@[simp] theorem latchOperands_cmdOut (o : Order) (n : BitVec 4) (s : State) : (latchOperands o n s).cmdOut = s.cmdOut := rfl
@[simp] theorem latchOperands_statusOut (o : Order) (n : BitVec 4) (s : State) : (latchOperands o n s).statusOut = s.statusOut := rfl
@[simp] theorem latchOperands_freeCtr (o : Order) (n : BitVec 4) (s : State) : (latchOperands o n s).freeCtr = s.freeCtr := rfl

/-! `startSession` -/

@[simp] theorem startSession_maxw (o : Order) (n : BitVec 4) (s : State) : (startSession o n s).maxw = s.maxw := rfl
@[simp] theorem startSession_n (o : Order) (n : BitVec 4) (s : State) : (startSession o n s).n = n := rfl
@[simp] theorem startSession_codeSize (o : Order) (n : BitVec 4) (s : State) : (startSession o n s).codeSize = n := rfl
@[simp] theorem startSession_clearCode (o : Order) (n : BitVec 4) (s : State) : (startSession o n s).clearCode = codeReg s.maxw (2 ^ n.toNat) := rfl
@[simp] theorem startSession_endInfoCode (o : Order) (n : BitVec 4) (s : State) : (startSession o n s).endInfoCode = codeReg s.maxw (2 ^ n.toNat + 1) := rfl
@[simp] theorem startSession_nextCode (o : Order) (n : BitVec 4) (s : State) : (startSession o n s).nextCode = codeReg s.maxw ((codeReg s.maxw (2 ^ n.toNat)).toNat + 2) := rfl
@[simp] theorem startSession_prevCode (o : Order) (n : BitVec 4) (s : State) : (startSession o n s).prevCode = none := rfl
@[simp] theorem startSession_dict (o : Order) (n : BitVec 4) (s : State) : (startSession o n s).dict = Memory.roots s.maxw (2 ^ n.toNat) := rfl
@[simp] theorem startSession_bitBuf (o : Order) (n : BitVec 4) (s : State) : (startSession o n s).bitBuf = 0#Config.bufRoom := rfl
@[simp] theorem startSession_bitCnt (o : Order) (n : BitVec 4) (s : State) : (startSession o n s).bitCnt = 0#5 := rfl
@[simp] theorem startSession_order (o : Order) (n : BitVec 4) (s : State) : (startSession o n s).order = o := rfl
@[simp] theorem startSession_mode (o : Order) (n : BitVec 4) (s : State) : (startSession o n s).mode = .run := rfl
@[simp] theorem startSession_err (o : Order) (n : BitVec 4) (s : State) : (startSession o n s).err = .none := rfl
@[simp] theorem startSession_inputs (o : Order) (n : BitVec 4) (s : State) : (startSession o n s).inputs = s.inputs := rfl
@[simp] theorem startSession_resp (o : Order) (n : BitVec 4) (s : State) : (startSession o n s).resp = s.resp := rfl
@[simp] theorem startSession_outEarlier (o : Order) (n : BitVec 4) (s : State) : (startSession o n s).outEarlier = s.outEarlier := rfl
@[simp] theorem startSession_cmdOut (o : Order) (n : BitVec 4) (s : State) : (startSession o n s).cmdOut = s.cmdOut := rfl
@[simp] theorem startSession_statusOut (o : Order) (n : BitVec 4) (s : State) : (startSession o n s).statusOut = s.statusOut := rfl
@[simp] theorem startSession_freeCtr (o : Order) (n : BitVec 4) (s : State) : (startSession o n s).freeCtr = s.freeCtr := rfl

/-! `tearDown` -/

@[simp] theorem tearDown_maxw (s : State) : (tearDown s).maxw = s.maxw := rfl
@[simp] theorem tearDown_n (s : State) : (tearDown s).n = Config.freeN s.freeCtr := rfl
@[simp] theorem tearDown_codeSize (s : State) : (tearDown s).codeSize = Config.freeCodeSize s.freeCtr := rfl
@[simp] theorem tearDown_clearCode (s : State) : (tearDown s).clearCode = codeReg s.maxw (Config.freeClearCode s.freeCtr).toNat := rfl
@[simp] theorem tearDown_endInfoCode (s : State) : (tearDown s).endInfoCode = codeReg s.maxw (Config.freeEndInfoCode s.freeCtr).toNat := rfl
@[simp] theorem tearDown_nextCode (s : State) : (tearDown s).nextCode = codeReg s.maxw (Config.freeNextCode s.freeCtr).toNat := rfl
@[simp] theorem tearDown_prevCode (s : State) : (tearDown s).prevCode = (Config.freePrevCode s.freeCtr).map (fun c => codeReg s.maxw c.toNat) := rfl
@[simp] theorem tearDown_dict (s : State) : (tearDown s).dict = [] := rfl
@[simp] theorem tearDown_bitBuf (s : State) : (tearDown s).bitBuf = bufReg s.maxw (Config.freeBitBuf s.freeCtr).toNat := rfl
@[simp] theorem tearDown_bitCnt (s : State) : (tearDown s).bitCnt = Config.freeBitCnt s.freeCtr := rfl
@[simp] theorem tearDown_order (s : State) : (tearDown s).order = Order.ofBit (Config.freeOrder s.freeCtr) := rfl
@[simp] theorem tearDown_mode (s : State) : (tearDown s).mode = .uninit := rfl
@[simp] theorem tearDown_err (s : State) : (tearDown s).err = .none := rfl
@[simp] theorem tearDown_inputs (s : State) : (tearDown s).inputs = s.inputs := rfl
@[simp] theorem tearDown_resp (s : State) : (tearDown s).resp = s.resp := rfl
@[simp] theorem tearDown_outEarlier (s : State) : (tearDown s).outEarlier = s.outEarlier := rfl
@[simp] theorem tearDown_cmdOut (s : State) : (tearDown s).cmdOut = s.cmdOut := rfl
@[simp] theorem tearDown_statusOut (s : State) : (tearDown s).statusOut = s.statusOut := rfl
@[simp] theorem tearDown_freeCtr (s : State) : (tearDown s).freeCtr = s.freeCtr + 1 := rfl

/-! `readStatus` -/

@[simp] theorem readStatus_maxw (k : StatusWord) (s : State) : (readStatus k s).maxw = s.maxw := rfl
@[simp] theorem readStatus_n (k : StatusWord) (s : State) : (readStatus k s).n = s.n := rfl
@[simp] theorem readStatus_codeSize (k : StatusWord) (s : State) : (readStatus k s).codeSize = s.codeSize := rfl
@[simp] theorem readStatus_clearCode (k : StatusWord) (s : State) : (readStatus k s).clearCode = s.clearCode := rfl
@[simp] theorem readStatus_endInfoCode (k : StatusWord) (s : State) : (readStatus k s).endInfoCode = s.endInfoCode := rfl
@[simp] theorem readStatus_nextCode (k : StatusWord) (s : State) : (readStatus k s).nextCode = s.nextCode := rfl
@[simp] theorem readStatus_prevCode (k : StatusWord) (s : State) : (readStatus k s).prevCode = s.prevCode := rfl
@[simp] theorem readStatus_dict (k : StatusWord) (s : State) : (readStatus k s).dict = s.dict := rfl
@[simp] theorem readStatus_bitBuf (k : StatusWord) (s : State) : (readStatus k s).bitBuf = s.bitBuf := rfl
@[simp] theorem readStatus_bitCnt (k : StatusWord) (s : State) : (readStatus k s).bitCnt = s.bitCnt := rfl
@[simp] theorem readStatus_order (k : StatusWord) (s : State) : (readStatus k s).order = s.order := rfl
@[simp] theorem readStatus_mode (k : StatusWord) (s : State) : (readStatus k s).mode = s.mode := rfl
@[simp] theorem readStatus_err (k : StatusWord) (s : State) : (readStatus k s).err = s.err := rfl
@[simp] theorem readStatus_inputs (k : StatusWord) (s : State) : (readStatus k s).inputs = s.inputs := rfl
@[simp] theorem readStatus_resp (k : StatusWord) (s : State) : (readStatus k s).resp = s.resp := rfl
@[simp] theorem readStatus_outEarlier (k : StatusWord) (s : State) : (readStatus k s).outEarlier = s.outEarlier := rfl
@[simp] theorem readStatus_cmdOut (k : StatusWord) (s : State) : (readStatus k s).cmdOut = s.cmdOut := rfl
@[simp] theorem readStatus_statusOut (k : StatusWord) (s : State) : (readStatus k s).statusOut = some (statusWord k s) := rfl
@[simp] theorem readStatus_freeCtr (k : StatusWord) (s : State) : (readStatus k s).freeCtr = s.freeCtr + 1 := rfl

/-! `powerOn` -/

@[simp] theorem powerOn_maxw (s : State) : (powerOn s).maxw = s.maxw := rfl
@[simp] theorem powerOn_n (s : State) : (powerOn s).n = Config.freeN s.freeCtr := rfl
@[simp] theorem powerOn_codeSize (s : State) : (powerOn s).codeSize = Config.freeCodeSize s.freeCtr := rfl
@[simp] theorem powerOn_clearCode (s : State) : (powerOn s).clearCode = codeReg s.maxw (Config.freeClearCode s.freeCtr).toNat := rfl
@[simp] theorem powerOn_endInfoCode (s : State) : (powerOn s).endInfoCode = codeReg s.maxw (Config.freeEndInfoCode s.freeCtr).toNat := rfl
@[simp] theorem powerOn_nextCode (s : State) : (powerOn s).nextCode = codeReg s.maxw (Config.freeNextCode s.freeCtr).toNat := rfl
@[simp] theorem powerOn_prevCode (s : State) : (powerOn s).prevCode = (Config.freePrevCode s.freeCtr).map (fun c => codeReg s.maxw c.toNat) := rfl
@[simp] theorem powerOn_dict (s : State) : (powerOn s).dict = Memory.unspecified s.maxw s.freeCtr := rfl
@[simp] theorem powerOn_bitBuf (s : State) : (powerOn s).bitBuf = bufReg s.maxw (Config.freeBitBuf s.freeCtr).toNat := rfl
@[simp] theorem powerOn_bitCnt (s : State) : (powerOn s).bitCnt = Config.freeBitCnt s.freeCtr := rfl
@[simp] theorem powerOn_order (s : State) : (powerOn s).order = Order.ofBit (Config.freeOrder s.freeCtr) := rfl
@[simp] theorem powerOn_mode (s : State) : (powerOn s).mode = .uninit := rfl
@[simp] theorem powerOn_err (s : State) : (powerOn s).err = .none := rfl
@[simp] theorem powerOn_inputs (s : State) : (powerOn s).inputs = s.inputs := rfl
@[simp] theorem powerOn_resp (s : State) : (powerOn s).resp = s.resp := rfl
@[simp] theorem powerOn_outEarlier (s : State) : (powerOn s).outEarlier = s.outEarlier := rfl
@[simp] theorem powerOn_cmdOut (s : State) : (powerOn s).cmdOut = s.cmdOut := rfl
@[simp] theorem powerOn_statusOut (s : State) : (powerOn s).statusOut = s.statusOut := rfl
@[simp] theorem powerOn_freeCtr (s : State) : (powerOn s).freeCtr = s.freeCtr + 1 := rfl

/-! `respondPush` -/

@[simp] theorem respondPush_maxw (s : State) : (respondPush s).maxw = s.maxw := rfl
@[simp] theorem respondPush_n (s : State) : (respondPush s).n = s.n := rfl
@[simp] theorem respondPush_codeSize (s : State) : (respondPush s).codeSize = s.codeSize := rfl
@[simp] theorem respondPush_clearCode (s : State) : (respondPush s).clearCode = s.clearCode := rfl
@[simp] theorem respondPush_endInfoCode (s : State) : (respondPush s).endInfoCode = s.endInfoCode := rfl
@[simp] theorem respondPush_nextCode (s : State) : (respondPush s).nextCode = s.nextCode := rfl
@[simp] theorem respondPush_prevCode (s : State) : (respondPush s).prevCode = s.prevCode := rfl
@[simp] theorem respondPush_dict (s : State) : (respondPush s).dict = s.dict := rfl
@[simp] theorem respondPush_bitBuf (s : State) : (respondPush s).bitBuf = s.bitBuf := rfl
@[simp] theorem respondPush_bitCnt (s : State) : (respondPush s).bitCnt = s.bitCnt := rfl
@[simp] theorem respondPush_order (s : State) : (respondPush s).order = s.order := rfl
@[simp] theorem respondPush_mode (s : State) : (respondPush s).mode = s.mode := rfl
@[simp] theorem respondPush_err (s : State) : (respondPush s).err = s.err := rfl
@[simp] theorem respondPush_inputs (s : State) : (respondPush s).inputs = s.inputs := rfl
@[simp] theorem respondPush_resp (s : State) : (respondPush s).resp = some (if s.mode = .error then .fault else .ok) := rfl
@[simp] theorem respondPush_outEarlier (s : State) : (respondPush s).outEarlier = s.outEarlier := rfl
@[simp] theorem respondPush_cmdOut (s : State) : (respondPush s).cmdOut = s.cmdOut := rfl
@[simp] theorem respondPush_statusOut (s : State) : (respondPush s).statusOut = s.statusOut := rfl
@[simp] theorem respondPush_freeCtr (s : State) : (respondPush s).freeCtr = s.freeCtr := rfl

end Sys2Proof.Machine
end

