-- ==== Sys2Proof/Laws/Ops.lean ====
section
/-! SUPPORT. One specification lemma for each shared operation: reading and resolving, Extend, Reset(), the accumulator, the
classification of a code, and going on from an answer. -/

namespace Sys2Proof.Machine

/-! ## Answers -/

@[simp] theorem andThen_next (s : State) (f : State → Answer) : andThen (.next s) f = f s := rfl
@[simp] theorem andThen_fault (r : Fault) (f : State → Answer) : andThen (.fault r) f = .fault r := rfl
@[simp] theorem andThen_refused (r : Refusal) (f : State → Answer) : andThen (.refused r) f = .refused r := rfl

/-- A sequence answers a next state exactly when both parts do. -/
theorem andThen_eq_next {o : Answer} {f : State → Answer} {t : State} :
    andThen o f = .next t ↔ ∃ s, o = .next s ∧ f s = .next t := by
  cases o <;> simp [andThen]

theorem andThen_assoc (o : Answer) (f g : State → Answer) :
    andThen (andThen o f) g = andThen o fun s => andThen (f s) g := by
  cases o <;> rfl

theorem inRun_of_run {s : State} {f : State → Answer} (h : s.mode = .run) : inRun s f = f s := if_pos h

theorem inRun_eq_next {s t : State} {f : State → Answer} :
    inRun s f = .next t ↔ s.mode = .run ∧ f s = .next t := by
  unfold inRun; split <;> simp_all

theorem asClass_eq_next {k : CodeClass} {c : Code} {s t : State} {f : State → Answer} :
    asClass k c s f = .next t ↔ classOf s c = k ∧ f s = .next t := by
  unfold asClass; split <;> simp_all

/-! ## The registers' widths (R20) -/

@[simp] theorem codeReg_toNat (m : MaxWidth) (v : Nat) : (codeReg m v).toNat = v % 2 ^ m.codeBits := by
  have h : 2 ^ m.codeBits ≤ 2 ^ Config.codeRoom := Nat.pow_le_pow_right (by norm_num) m.codeBits_le
  rw [codeReg, BitVec.toNat_ofNat]
  exact Nat.mod_eq_of_lt (Nat.lt_of_lt_of_le (Nat.mod_lt _ (by positivity)) h)

/-- A value that fits a code-typed register is held exactly (R151). -/
theorem codeReg_toNat_of_lt {m : MaxWidth} {v : Nat} (h : v < 2 ^ m.codeBits) : (codeReg m v).toNat = v := by
  rw [codeReg_toNat, Nat.mod_eq_of_lt h]

@[simp] theorem bufReg_toNat (m : MaxWidth) (v : Nat) : (bufReg m v).toNat = v % 2 ^ m.bufBits := by
  have h : 2 ^ m.bufBits ≤ 2 ^ Config.bufRoom := Nat.pow_le_pow_right (by norm_num) m.bufBits_le
  rw [bufReg, BitVec.toNat_ofNat]
  exact Nat.mod_eq_of_lt (Nat.lt_of_lt_of_le (Nat.mod_lt _ (by positivity)) h)

/-- A value that fits `BITBUF` is held exactly (R103, R151). -/
theorem bufReg_toNat_of_lt {m : MaxWidth} {v : Nat} (h : v < 2 ^ m.bufBits) : (bufReg m v).toNat = v := by
  rw [bufReg_toNat, Nat.mod_eq_of_lt h]

theorem codeReg_lt (m : MaxWidth) (v : Nat) : (codeReg m v).toNat < 2 ^ m.codeBits := by
  rw [codeReg_toNat]; exact Nat.mod_lt _ (by positivity)

theorem bufReg_lt (m : MaxWidth) (v : Nat) : (bufReg m v).toNat < 2 ^ m.bufBits := by
  rw [bufReg_toNat]; exact Nat.mod_lt _ (by positivity)

/-! ## Reading and resolving -/

theorem inDict_iff {s : State} {c : Nat} : inDict s c = true ↔ ∃ v, dictRead s c = some v := by
  simp [inDict, Option.isSome_iff_exists]

theorem inDict_false_iff {s : State} {c : Nat} : inDict s c = false ↔ dictRead s c = none := by
  simp [inDict]

theorem dictRead_congr {s t : State} (hm : s.maxw = t.maxw) (h : s.dict = t.dict) (c : Nat) :
    dictRead s c = dictRead t c := by
  simp [dictRead, hm, h]

theorem prevValue_eq_some {s : State} {p : Entry} :
    prevValue s = some p ↔ ∃ q, s.prevCode = some q ∧ dictRead s q.toNat = some p := by
  unfold prevValue; split <;> simp_all

theorem prevValue_congr {s t : State} (hm : s.maxw = t.maxw) (hd : s.dict = t.dict) (hp : s.prevCode = t.prevCode) :
    prevValue s = prevValue t := by
  unfold prevValue; rw [hp]; simp only [dictRead, hm, hd]

theorem viewOf_congr {s t : State} (hm : s.maxw = t.maxw) (hd : s.dict = t.dict) (hp : s.prevCode = t.prevCode)
    (hc : s.clearCode = t.clearCode) (he : s.endInfoCode = t.endInfoCode) (hn : s.nextCode = t.nextCode) (c : Code) :
    viewOf s c = viewOf t c := by
  simp only [viewOf, inDict, dictRead_congr hm hd, prevValue_congr hm hd hp, hc, he, hn]

/-! ## The classification of a code (R76) -/

theorem classify_known {v : CodeView} {c : Code} : classify v c = .known ↔ v.inDict = true := by
  unfold classify; repeat' split
  all_goals simp_all

theorem classify_clear {v : CodeView} {c : Code} : classify v c = .clear ↔ v.inDict = false ∧ c = v.clearCode := by
  unfold classify; repeat' split
  all_goals simp_all

theorem classify_eoi {v : CodeView} {c : Code} :
    classify v c = .eoi ↔ v.inDict = false ∧ c ≠ v.clearCode ∧ c = v.endInfoCode := by
  unfold classify; repeat' split
  all_goals simp_all

theorem classify_kwkwk {v : CodeView} {c : Code} :
    classify v c = .kwkwk ↔
      v.inDict = false ∧ c ≠ v.clearCode ∧ c ≠ v.endInfoCode ∧ v.resolvable = true ∧ c = v.nextCode := by
  unfold classify; repeat' split
  all_goals simp_all

theorem classify_skip {v : CodeView} {c : Code} :
    classify v c = .skip ↔ v.inDict = false ∧ c ≠ v.clearCode ∧ c ≠ v.endInfoCode ∧ v.resolvable = false := by
  unfold classify; repeat' split
  all_goals simp_all

theorem classify_bad {v : CodeView} {c : Code} :
    classify v c = .bad ↔
      v.inDict = false ∧ c ≠ v.clearCode ∧ c ≠ v.endInfoCode ∧ v.resolvable = true ∧ c ≠ v.nextCode := by
  unfold classify; repeat' split
  all_goals simp_all

/-! ## Extend (R142) -/

theorem extend_of_full {s : State} (v : Entry) (h : s.maxw.slots ≤ s.nextCode.toNat) : extend v s = s := by
  unfold extend dictFull; rw [if_pos (by simpa using h)]

theorem extend_of_room {s : State} (v : Entry) (h : s.nextCode.toNat < s.maxw.slots) :
    extend v s = addEntry v s := by
  unfold extend dictFull; rw [if_neg (by simp only [decide_eq_true_eq]; omega)]

/-- Extend either changes nothing (the dictionary is full) or adds the entry. -/
theorem extend_cases (v : Entry) (s : State) :
    (s.maxw.slots ≤ s.nextCode.toNat ∧ extend v s = s) ∨
    (s.nextCode.toNat < s.maxw.slots ∧ extend v s = addEntry v s) := by
  rcases Nat.lt_or_ge s.nextCode.toNat s.maxw.slots with h | h
  · exact .inr ⟨h, extend_of_room v h⟩
  · exact .inl ⟨h, extend_of_full v h⟩

theorem addEntry_nextCode_toNat {s : State} (v : Entry) (h : s.nextCode.toNat < s.maxw.slots) :
    (addEntry v s).nextCode.toNat = s.nextCode.toNat + 1 := by
  rw [addEntry_nextCode]
  exact codeReg_toNat_of_lt (by
    have hpos : 0 < 2 ^ s.maxw.bits := by positivity
    rw [MaxWidth.codeBits, Nat.pow_succ]
    unfold MaxWidth.slots at h
    omega)

/-- The growth rule on the width counter (R142). -/
theorem grownCodeSize_toNat (next : Nat) (s : State) :
    (grownCodeSize next s).toNat =
      if next = 2 ^ (s.codeSize.toNat + 1) ∧ s.codeSize.toNat + 1 < s.maxw.bits then s.codeSize.toNat + 1
      else s.codeSize.toNat := by
  unfold grownCodeSize
  split
  · rename_i h
    have := h.2
    have := s.maxw.bits_le
    simp only [BitVec.toNat_ofNat]
    omega
  · rfl

theorem dictRead_addEntry_same {s : State} (v : Entry) (h : s.nextCode.toNat < s.maxw.slots) :
    dictRead (addEntry v s) s.nextCode.toNat = some v := by
  simp only [dictRead, addEntry_dict]
  exact Memory.read_write_same _ _ h

theorem dictRead_addEntry_other {s : State} (v : Entry) {a : Nat} (h : a ≠ s.nextCode.toNat) :
    dictRead (addEntry v s) a = dictRead s a := by
  simp only [dictRead, addEntry_dict]
  exact Memory.read_write_other _ _ _ h

theorem wf_extend {s : State} (v : Entry) (h : Memory.wf s.maxw s.dict) :
    Memory.wf (extend v s).maxw (extend v s).dict := by
  rcases extend_cases v s with ⟨-, he⟩ | ⟨-, he⟩ <;> rw [he]
  · exact h
  · exact Memory.wf_write _ _ h

/-- KNOWN extends by the previous value and the first byte of this one, or not at all (R144). -/
theorem extendFromPrev_cases (v : Entry) (s : State) :
    (prevValue s = none ∧ extendFromPrev v s = s) ∨
    (∃ p, prevValue s = some p ∧ extendFromPrev v s = extend (p.snoc v.first) s) := by
  unfold extendFromPrev
  split
  · rename_i p h; exact .inr ⟨p, h, rfl⟩
  · rename_i h; exact .inl ⟨h, rfl⟩

/-! ## Reset() (R122) -/

theorem dictRead_resetProc (s : State) (c : Nat) :
    dictRead (resetProc s) c
      = if c < 2 ^ s.n.toNat ∧ c < s.maxw.slots then some (Entry.single (low8 c)) else none := by
  simp only [dictRead, resetProc_dict]
  exact Memory.read_roots _ _ _

/-! ## The accumulator (R103, R104) -/

theorem accumulatorValid_iff {s : State} :
    accumulatorValid s = true ↔ s.bitCnt.toNat ≤ s.maxw.bits - 1 ∧ s.bitBuf.toNat < 2 ^ s.bitCnt.toNat := by
  simp [accumulatorValid]

theorem accumulate_bitCnt_toNat {s : State} (b : Byte) (h : s.bitCnt.toNat ≤ s.maxw.bits - 1) :
    (accumulate b s).bitCnt.toNat = s.bitCnt.toNat + 8 := by
  have := s.maxw.bits_le
  simp only [accumulate_bitCnt, BitVec.toNat_ofNat]
  omega

theorem dropCode_bitCnt_toNat (w : Nat) (s : State) : (dropCode w s).bitCnt.toNat = s.bitCnt.toNat - w := by
  simp only [dropCode_bitCnt, BitVec.toNat_ofNat]
  have := s.bitCnt.isLt
  omega

/-- Nothing overflows `BITBUF` (R103, R151): the sum is computed exactly. -/
theorem accumulate_bitBuf_toNat {s : State} (b : Byte) (hc : s.bitCnt.toNat ≤ s.maxw.bits - 1)
    (hb : s.bitBuf.toNat < 2 ^ s.bitCnt.toNat) :
    (accumulate b s).bitBuf.toNat = (match s.order with
      | .lsb => s.bitBuf.toNat + b.toNat * 2 ^ s.bitCnt.toNat
      | .msb => s.bitBuf.toNat * 256 + b.toNat) ∧
    (accumulate b s).bitBuf.toNat < 2 ^ (s.bitCnt.toNat + 8) := by
  have hbyte : b.toNat < 256 := b.isLt
  have hpos := s.maxw.bits_pos
  have hpow : 2 ^ (s.bitCnt.toNat + 8) ≤ 2 ^ s.maxw.bufBits :=
    Nat.pow_le_pow_right (by norm_num) (by unfold MaxWidth.bufBits; omega)
  have hsplit : 2 ^ (s.bitCnt.toNat + 8) = 2 ^ s.bitCnt.toNat * 256 := by rw [Nat.pow_add]
  have hlsb : s.bitBuf.toNat + b.toNat * 2 ^ s.bitCnt.toNat < 2 ^ (s.bitCnt.toNat + 8) := by
    rw [hsplit]; nlinarith
  have hmsb : s.bitBuf.toNat * 256 + b.toNat < 2 ^ (s.bitCnt.toNat + 8) := by rw [hsplit]; omega
  unfold accumulate
  cases s.order <;> simp only
  · rw [bufReg_toNat_of_lt (Nat.lt_of_lt_of_le hlsb hpow)]; exact ⟨rfl, hlsb⟩
  · rw [bufReg_toNat_of_lt (Nat.lt_of_lt_of_le hmsb hpow)]; exact ⟨rfl, hmsb⟩

/-- BITBUF keeps its width, whatever was held before (R20). -/
theorem accumulate_bitBuf_lt (b : Byte) (s : State) : (accumulate b s).bitBuf.toNat < 2 ^ s.maxw.bufBits := bufReg_lt _ _

theorem dropCode_bitBuf_lt (w : Nat) (s : State) : (dropCode w s).bitBuf.toNat < 2 ^ s.maxw.bufBits := bufReg_lt _ _

/-- The code at the front is below `2^W` and is computed exactly (R104). -/
theorem frontCode_toNat {s : State} {w : Nat} (hw : w ≤ s.maxw.bits) (hc : w ≤ s.bitCnt.toNat)
    (hb : s.bitBuf.toNat < 2 ^ s.bitCnt.toNat) :
    (frontCode w s).toNat = (match s.order with
      | .lsb => s.bitBuf.toNat % 2 ^ w
      | .msb => s.bitBuf.toNat / 2 ^ (s.bitCnt.toNat - w)) ∧
    (frontCode w s).toNat < 2 ^ w := by
  have hpow : 2 ^ w ≤ 2 ^ s.maxw.codeBits :=
    Nat.pow_le_pow_right (by norm_num) (by unfold MaxWidth.codeBits; omega)
  have hl : s.bitBuf.toNat % 2 ^ w < 2 ^ w := Nat.mod_lt _ (by positivity)
  have hm : s.bitBuf.toNat / 2 ^ (s.bitCnt.toNat - w) < 2 ^ w := by
    rw [Nat.div_lt_iff_lt_mul (by positivity), ← Nat.pow_add]
    rwa [Nat.add_sub_cancel' hc]
  unfold frontCode
  cases s.order <;> simp only [Nat.shiftRight_eq_div_pow]
  · rw [codeReg_toNat_of_lt (Nat.lt_of_lt_of_le hl hpow)]; exact ⟨rfl, hl⟩
  · rw [codeReg_toNat_of_lt (Nat.lt_of_lt_of_le hm hpow)]; exact ⟨rfl, hm⟩

/-- What is left after a code is the newer bits, below `2^BITCNT` (R104, R101). -/
theorem dropCode_bitBuf_toNat {s : State} {w : Nat} (hc : w ≤ s.bitCnt.toNat)
    (hb : s.bitBuf.toNat < 2 ^ s.bitCnt.toNat) (hf : s.bitBuf.toNat < 2 ^ s.maxw.bufBits) :
    (dropCode w s).bitBuf.toNat = (match s.order with
      | .lsb => s.bitBuf.toNat / 2 ^ w
      | .msb => s.bitBuf.toNat % 2 ^ (s.bitCnt.toNat - w)) ∧
    (dropCode w s).bitBuf.toNat < 2 ^ (s.bitCnt.toNat - w) := by
  have hl : s.bitBuf.toNat / 2 ^ w < 2 ^ (s.bitCnt.toNat - w) := by
    rw [Nat.div_lt_iff_lt_mul (by positivity), ← Nat.pow_add]
    rwa [Nat.sub_add_cancel hc]
  have hm : s.bitBuf.toNat % 2 ^ (s.bitCnt.toNat - w) < 2 ^ (s.bitCnt.toNat - w) := Nat.mod_lt _ (by positivity)
  unfold dropCode
  cases s.order <;> simp only [Nat.shiftRight_eq_div_pow]
  · rw [bufReg_toNat_of_lt (Nat.lt_of_le_of_lt (Nat.div_le_self _ _) hf)]; exact ⟨rfl, hl⟩
  · rw [bufReg_toNat_of_lt (Nat.lt_of_le_of_lt (Nat.mod_le _ _) hf)]; exact ⟨rfl, hm⟩

end Sys2Proof.Machine
end

