-- ==== Sys2Proof/Laws/Bits.lean ====
section
/-! SUPPORT. The values of stream bits (rules R73, R74) and the held stream bits (R101). -/

namespace Sys2Proof

/-! ## Fields of a word made of parts -/

/-- A field that lies in the lower part. -/
theorem extract_append_low {a b : Nat} (x : BitVec a) (y : BitVec b) {i w : Nat} (h : i + w ≤ b) :
    (x ++ y).extractLsb' i w = y.extractLsb' i w := by
  apply BitVec.eq_of_getLsbD_eq
  intro j hj
  have hb : i + j < b := by omega
  simp [BitVec.getLsbD_append, hj, hb]

/-- A field that lies in the upper part. -/
theorem extract_append_high {a b : Nat} (x : BitVec a) (y : BitVec b) {i w : Nat} (h : b ≤ i) :
    (x ++ y).extractLsb' i w = x.extractLsb' (i - b) w := by
  apply BitVec.eq_of_getLsbD_eq
  intro j hj
  have hb : ¬(i + j < b) := by omega
  have hs : i + j - b = i - b + j := by omega
  simp [BitVec.getLsbD_append, hj, hb, hs]

/-- A whole part is the field of its width. -/
theorem extract_whole {w : Nat} (x : BitVec w) : x.extractLsb' 0 w = x := by simp

/-! ## Stream bits -/

theorem valueMsb_append (xs ys : List Bool) :
    valueMsb (xs ++ ys) = valueMsb xs * 2 ^ ys.length + valueMsb ys := by
  induction xs with
  | nil => simp [valueMsb]
  | cons b bs ih => simp only [List.cons_append, valueMsb, ih, List.length_append, Nat.pow_add]; ring

/-- The two bit orders read a bit sequence from its two ends (R73, R74). -/
theorem valueMsb_reverse (xs : List Bool) : valueMsb xs.reverse = valueLsb xs := by
  induction xs with
  | nil => rfl
  | cons b bs ih =>
    rw [List.reverse_cons, valueMsb_append, ih]
    simp [valueMsb, valueLsb]
    ring

/-- The value of the low `w` bits of a number. -/
theorem valueLsb_testBit (w c : Nat) : valueLsb ((List.range w).map (fun i => c.testBit i)) = c % 2 ^ w := by
  induction w generalizing c with
  | zero => simp [valueLsb, Nat.mod_one]
  | succ w ih =>
    have hs : (fun i => c.testBit i) ∘ Nat.succ = fun i => (c / 2).testBit i := by
      funext i; simp [Nat.testBit_succ]
    rw [List.range_succ_eq_map, List.map_cons, List.map_map]
    simp only [valueLsb]
    rw [hs, ih, Nat.pow_succ, Nat.mul_comm (2 ^ w) 2, Nat.mod_mul]
    rcases Nat.mod_two_eq_zero_or_one c with h | h <;> simp [Nat.testBit_zero, h]

theorem valueLsb_lt (xs : List Bool) : valueLsb xs < 2 ^ xs.length := by
  induction xs with
  | nil => simp [valueLsb]
  | cons b bs ih =>
    have hb : b.toNat ≤ 1 := b.toNat_le
    simp only [valueLsb, List.length_cons, Nat.pow_succ]
    omega

theorem valueMsb_lt (xs : List Bool) : valueMsb xs < 2 ^ xs.length := by
  rw [← List.reverse_reverse xs, valueMsb_reverse, List.length_reverse]
  exact valueLsb_lt _

namespace Machine

/-- `BITCNT` stream bits are held (R101). -/
@[simp] theorem heldBits_length (s : State) : (heldBits s).length = s.bitCnt.toNat := by
  unfold heldBits; cases s.order <;> simp

theorem heldBits_congr {s t : State} (ho : s.order = t.order) (hb : s.bitBuf = t.bitBuf) (hc : s.bitCnt = t.bitCnt) :
    heldBits s = heldBits t := by
  unfold heldBits; rw [ho, hb, hc]

end Machine
end Sys2Proof
end

