-- ==== Sys2Proof/Laws/Codes.lean ====
section
/-! SUPPORT. What each code class does when it answers a next state, and what executing a code does. -/

namespace Sys2Proof.Machine

theorem execKnown_of_run {s : State} {c : Code} {v : Entry} (hr : s.mode = .run) (hv : dictRead s c.toNat = some v) :
    execKnown c s = .next (setPrevCode c (extendFromPrev v (emit v s))) := by
  unfold execKnown; rw [inRun_of_run hr]; simp only [hv]

theorem execKnown_eq_next {s t : State} {c : Code} :
    execKnown c s = .next t ↔
      s.mode = .run ∧ ∃ v, dictRead s c.toNat = some v ∧ t = setPrevCode c (extendFromPrev v (emit v s)) := by
  unfold execKnown
  rw [inRun_eq_next]
  cases h : dictRead s c.toNat <;> simp [eq_comm]

theorem execClear_eq_next {s t : State} :
    execClear s = .next t ↔ s.mode = .run ∧ t = setPrevCode s.clearCode (resetProc s) := by
  unfold execClear; rw [inRun_eq_next]; simp [eq_comm]

theorem execEoi_eq_next {s t : State} :
    execEoi s = .next t ↔ s.mode = .run ∧ t = { dropBits s with mode := .done } := by
  unfold execEoi; rw [inRun_eq_next]; simp [eq_comm]

theorem execKwkwk_eq_next {s t : State} {c : Code} :
    execKwkwk c s = .next t ↔
      s.mode = .run ∧ classOf s c = .kwkwk ∧
      ∃ p, prevValue s = some p ∧ t = setPrevCode c (extend (p.snoc p.first) (emit (p.snoc p.first) s)) := by
  unfold execKwkwk
  rw [inRun_eq_next, asClass_eq_next]
  cases h : prevValue s <;> simp [eq_comm]

theorem execSkip_eq_next {s t : State} {c : Code} :
    execSkip c s = .next t ↔ s.mode = .run ∧ classOf s c = .skip ∧ t = setPrevCode c s := by
  unfold execSkip; rw [inRun_eq_next, asClass_eq_next]; simp [eq_comm]

theorem execBad_eq_next {s t : State} {c : Code} :
    execBad c s = .next t ↔ s.mode = .run ∧ classOf s c = .bad ∧ t = raiseFault .badCode s := by
  unfold execBad; rw [inRun_eq_next, asClass_eq_next]; simp [eq_comm]

/-- Everything that executing a code can do (R140, R150): one case per class. -/
theorem runCode_cases {s t : State} {c : Code} (h : runCode c s = .next t) :
    s.mode = .run ∧
    ((∃ v, dictRead s c.toNat = some v ∧ t = setPrevCode c (extendFromPrev v (emit v s))) ∨
     (inDict s c.toNat = false ∧ c = s.clearCode ∧ t = setPrevCode s.clearCode (resetProc s)) ∨
     (inDict s c.toNat = false ∧ c = s.endInfoCode ∧ t = { dropBits s with mode := .done }) ∨
     (inDict s c.toNat = false ∧ c = s.nextCode ∧
        ∃ p, prevValue s = some p ∧ t = setPrevCode c (extend (p.snoc p.first) (emit (p.snoc p.first) s))) ∨
     (inDict s c.toNat = false ∧ c ≠ s.clearCode ∧ c ≠ s.endInfoCode ∧ t = setPrevCode c s) ∨
     (inDict s c.toNat = false ∧ t = raiseFault .badCode s)) := by
  unfold runCode at h
  cases hc : classOf s c <;> rw [hc] at h
  · obtain ⟨hr, hk⟩ := execKnown_eq_next.1 h
    exact ⟨hr, .inl hk⟩
  · obtain ⟨hr, ht⟩ := execClear_eq_next.1 h
    obtain ⟨h1, h2⟩ := classify_clear.1 hc
    exact ⟨hr, .inr (.inl ⟨h1, h2, ht⟩)⟩
  · obtain ⟨hr, ht⟩ := execEoi_eq_next.1 h
    obtain ⟨h1, -, h2⟩ := classify_eoi.1 hc
    exact ⟨hr, .inr (.inr (.inl ⟨h1, h2, ht⟩))⟩
  · obtain ⟨hr, -, ht⟩ := execKwkwk_eq_next.1 h
    obtain ⟨h1, -, -, -, h2⟩ := classify_kwkwk.1 hc
    exact ⟨hr, .inr (.inr (.inr (.inl ⟨h1, h2, ht⟩)))⟩
  · obtain ⟨hr, -, ht⟩ := execSkip_eq_next.1 h
    obtain ⟨h1, h2, h3, -⟩ := classify_skip.1 hc
    exact ⟨hr, .inr (.inr (.inr (.inr (.inl ⟨h1, h2, h3, ht⟩))))⟩
  · obtain ⟨hr, -, ht⟩ := execBad_eq_next.1 h
    obtain ⟨h1, -⟩ := classify_bad.1 hc
    exact ⟨hr, .inr (.inr (.inr (.inr (.inr ⟨h1, ht⟩))))⟩

end Sys2Proof.Machine
end

