-- ==== Sys2Proof/Laws/Commands.lean ====
section
/-! SUPPORT. What each command does when it answers a next state, and the induction along the drain loop of PUSH. -/

namespace Sys2Proof.Machine

theorem initLegal_iff {m : MaxWidth} {zero : BitVec 3} {n : BitVec 4} :
    initLegal m zero n = true ↔ zero = 0#3 ∧ 1 ≤ n.toNat ∧ n.toNat < m.bits := by
  simp [initLegal, and_assoc]

theorem execInit_legal {n : BitVec 4} (order : Order) (s : State) (h1 : 1 ≤ n.toNat) (h2 : n.toNat < s.maxw.bits) :
    execInit 0#3 order n s = .next (respond .ok (startSession order n (beginCommand s))) := by
  unfold execInit; rw [if_pos (initLegal_iff.2 ⟨rfl, h1, h2⟩)]

theorem execInit_illegal {zero : BitVec 3} {n : BitVec 4} (order : Order) (s : State)
    (h : n.toNat = 0 ∨ s.maxw.bits ≤ n.toNat ∨ zero ≠ 0#3) : execInit zero order n s = .next (refuse s) := by
  unfold execInit
  rw [if_neg]
  rw [initLegal_iff]
  rintro ⟨h1, h2, h3⟩
  rcases h with h | h | h
  · omega
  · omega
  · exact h h1

/-- The code constants of a session fit their registers (R151 (4)). -/
theorem codeReg_pow_add {m : MaxWidth} {n k : Nat} (hn : n ≤ m.bits - 1) (hk : k ≤ 2) :
    (codeReg m (2 ^ n + k)).toNat = 2 ^ n + k := by
  have hpos := m.bits_ge
  have h1 : 2 ^ n ≤ 2 ^ (m.bits - 1) := Nat.pow_le_pow_right (by norm_num) hn
  have h2 : 2 ^ 11 ≤ 2 ^ (m.bits - 1) := Nat.pow_le_pow_right (by norm_num) (by omega)
  have h3 : 2 ^ m.codeBits = 2 ^ (m.bits - 1) * 4 := by
    rw [MaxWidth.codeBits, show m.bits + 1 = m.bits - 1 + 2 by omega, Nat.pow_add]
  exact codeReg_toNat_of_lt (by omega)

/-- The code registers after an INIT (R120). -/
theorem startSession_codes_toNat {n : BitVec 4} (order : Order) {s : State} (hn : n.toNat ≤ s.maxw.bits - 1) :
    (startSession order n s).clearCode.toNat = 2 ^ n.toNat ∧
    (startSession order n s).endInfoCode.toNat = 2 ^ n.toNat + 1 ∧
    (startSession order n s).nextCode.toNat = 2 ^ n.toNat + 2 := by
  have h0 := codeReg_pow_add (k := 0) hn (by omega)
  rw [Nat.add_zero] at h0
  refine ⟨h0, codeReg_pow_add hn (by omega), ?_⟩
  rw [startSession_nextCode, h0]
  exact codeReg_pow_add hn (by omega)

/-- `codeWaiting` is the loop condition of R102. -/
theorem codeWaiting_iff {s : State} :
    codeWaiting s = true ↔ s.mode = .run ∧ s.codeSize.toNat + 1 ≤ s.bitCnt.toNat := by
  simp [codeWaiting, readWidth]

theorem takeAndRun_eq_next {s t : State} :
    takeAndRun s = .next t ↔
      readWidth s ≤ s.maxw.bits ∧ runCode (frontCode (readWidth s) s) (dropCode (readWidth s) s) = .next t := by
  unfold takeAndRun; split <;> simp_all

theorem drain_stop {fuel : Nat} {s : State} (h : codeWaiting s = false) : drain fuel s = .next s := by
  cases fuel with
  | zero => rfl
  | succ k => simp [drain, h]

theorem drain_take {fuel : Nat} {s : State} (h : codeWaiting s = true) :
    drain (fuel + 1) s = andThen (takeAndRun s) (drain fuel) := by
  simp [drain, h]

/-- The induction along the drain loop: what every executed code keeps, the loop keeps. -/
theorem drain_keeps {P : State → Prop}
    (hstep : ∀ s t, P s → codeWaiting s = true → takeAndRun s = .next t → P t)
    {fuel : Nat} {s t : State} (hs : P s) (h : drain fuel s = .next t) : P t := by
  induction fuel generalizing s with
  | zero => cases h; exact hs
  | succ k ih =>
    by_cases hw : codeWaiting s = true
    · rw [drain_take hw, andThen_eq_next] at h
      obtain ⟨u, hu, hd⟩ := h
      exact ih (hstep s u hs hw hu) hd
    · rw [drain_stop (by simpa using hw)] at h
      cases h; exact hs

theorem pushRun_eq_next {b : Byte} {s t : State} :
    pushRun b s = .next t ↔
      accumulatorValid s = true ∧
      ∃ u, drain (s.bitCnt.toNat + 8) (accumulate b (beginCommand s)) = .next u ∧ t = respondPush u := by
  unfold pushRun
  split
  · rename_i h
    rw [andThen_eq_next]
    simp [h, eq_comm]
  · rename_i h
    simp [h]

/-- Everything a PUSH can do (R102, R91). -/
theorem execPush_cases {b : Byte} {s t : State} (h : execPush b s = .next t) :
    (s.mode = .run ∧ pushRun b s = .next t) ∨
    (s.mode = .done ∧ t = respond .ok (beginCommand s)) ∨
    ((s.mode = .uninit ∨ s.mode = .error) ∧ t = refuse s) := by
  unfold execPush at h
  cases hm : s.mode <;> simp_all [eq_comm]

/-- Everything a RESET can do (R123). -/
theorem execReset_cases (x : BitVec 8) {s t : State} (h : execReset x s = .next t) :
    ((s.mode = .run ∨ s.mode = .done) ∧ t = respond .ok (resetProc (beginCommand s))) ∨
    ((s.mode = .uninit ∨ s.mode = .error) ∧ t = refuse s) := by
  unfold execReset at h
  cases hm : s.mode <;> simp_all [eq_comm]

/-- Everything an INIT can do (R120, R121). -/
theorem execInit_cases {zero : BitVec 3} {order : Order} {n : BitVec 4} {s t : State}
    (h : execInit zero order n s = .next t) :
    (zero = 0#3 ∧ 1 ≤ n.toNat ∧ n.toNat < s.maxw.bits ∧ t = respond .ok (startSession order n (beginCommand s))) ∨
    ((n.toNat = 0 ∨ s.maxw.bits ≤ n.toNat ∨ zero ≠ 0#3) ∧ t = refuse s) := by
  by_cases hl : initLegal s.maxw zero n = true
  · obtain ⟨h1, h2, h3⟩ := initLegal_iff.1 hl
    unfold execInit at h
    rw [if_pos hl] at h
    cases h
    exact .inl ⟨h1, h2, h3, rfl⟩
  · unfold execInit at h
    rw [if_neg hl] at h
    cases h
    refine .inr ⟨?_, rfl⟩
    rw [initLegal_iff] at hl
    by_cases h0 : zero = 0#3
    · simp only [h0, true_and] at hl
      omega
    · exact .inr (.inr h0)

end Sys2Proof.Machine
end

