-- ==== Sys2Proof/Laws/Decode.lean ====
section
/-! SUPPORT. The fields of a command word and of INIT's operand: reading a field gives what was laid out there, and a word
is made of its fields (rules R85, R86). -/

namespace Sys2Proof

@[simp] theorem cmdOpcode_cmdWord (o : BitVec 3) (a : BitVec 8) : cmdOpcode (cmdWord o a) = o := by
  show (o ++ a : BitVec (3 + 8)).extractLsb' 8 3 = o
  ext i hi
  rw [BitVec.getElem_extractLsb', BitVec.getLsbD_append]
  simp [BitVec.getLsbD_eq_getElem hi]

@[simp] theorem cmdOperand_cmdWord (o : BitVec 3) (a : BitVec 8) : cmdOperand (cmdWord o a) = a := by
  show (o ++ a : BitVec (3 + 8)).extractLsb' 0 8 = a
  ext i hi
  rw [BitVec.getElem_extractLsb', BitVec.getLsbD_append]
  simp [hi]

@[simp] theorem cmdWord_fields (w : CmdWord) : cmdWord (cmdOpcode w) (cmdOperand w) = w := by
  unfold cmdWord cmdOpcode cmdOperand
  ext i hi
  simp only [BitVec.getElem_append, BitVec.getElem_extractLsb']
  split
  · simp [BitVec.getLsbD_eq_getElem hi]
  · rw [Nat.add_sub_cancel' (by omega), BitVec.getLsbD_eq_getElem hi]

@[simp] theorem Order.ofBit_toBit (o : Order) : Order.ofBit o.toBit = o := by cases o <;> rfl

@[simp] theorem Order.toBit_ofBit (b : BitVec 1) : (Order.ofBit b).toBit = b := by revert b; decide

theorem decodeInit_encodeInitOperand (zero : BitVec 3) (o : Order) (n : BitVec 4) :
    decodeInit (encodeInitOperand zero o n) = .init zero o n := by
  have hz : (encodeInitOperand zero o n).extractLsb' 5 3 = zero := by
    show (zero ++ o.toBit ++ n : BitVec (3 + 1 + 4)).extractLsb' 5 3 = zero
    ext i hi
    rw [BitVec.getElem_extractLsb', BitVec.getLsbD_append, BitVec.getLsbD_append]
    have h4 : ¬(5 + i < 4) := by omega
    have h1 : ¬(5 + i - 4 < 1) := by omega
    have hs : 5 + i - 4 - 1 = i := by omega
    simp [h4, h1, hs, BitVec.getLsbD_eq_getElem hi]
  have ho : (encodeInitOperand zero o n).extractLsb' 4 1 = o.toBit := by
    show (zero ++ o.toBit ++ n : BitVec (3 + 1 + 4)).extractLsb' 4 1 = o.toBit
    ext i hi
    rw [BitVec.getElem_extractLsb', BitVec.getLsbD_append, BitVec.getLsbD_append]
    simp [hi]
  have hn : (encodeInitOperand zero o n).extractLsb' 0 4 = n := by
    show (zero ++ o.toBit ++ n : BitVec (3 + 1 + 4)).extractLsb' 0 4 = n
    ext i hi
    rw [BitVec.getElem_extractLsb', BitVec.getLsbD_append]
    simp [hi]
  unfold decodeInit
  rw [hz, ho, hn, Order.ofBit_toBit]

theorem encodeInitOperand_fields (a : BitVec 8) :
    encodeInitOperand (a.extractLsb' 5 3) (Order.ofBit (a.extractLsb' 4 1)) (a.extractLsb' 0 4) = a := by
  revert a; decide

end Sys2Proof
end

