-- ==== Sys2Proof/Laws/PerInstr.lean ====
section
/-! SUPPORT. Statements for all instructions, one lemma per constructor. -/

/-- An instruction is written as a command word exactly when it is a command, and a code is written as a value the stream
can carry (R72, R85), in a session whose control codes the stream can carry. -/
def Sys2Proof.Laws.CommandOrCode.Statement (i : Sys2Proof.Instr) : Prop :=
  ∀ (m : Sys2Proof.MaxWidth) (v : Sys2Proof.CodeView), Sys2Proof.codeFits m v.clearCode = true →
    Sys2Proof.codeFits m v.endInfoCode = true → Sys2Proof.wellFormed m i = true →
    (i.isCommand = true ∧ ∃ w, Sys2Proof.encode v i = .command w) ∨
    (i.isCommand = false ∧ ∃ c, Sys2Proof.encode v i = .code c ∧ Sys2Proof.codeFits m c = true)

namespace Sys2Proof.Laws.CommandOrCode

theorem known (c : Code) : Statement (.known c) := fun _ _ _ _ h => .inr ⟨rfl, c, rfl, h⟩
theorem clear : Statement .clear := fun _ v hc _ _ => .inr ⟨rfl, v.clearCode, rfl, hc⟩
theorem eoi : Statement .eoi := fun _ v _ he _ => .inr ⟨rfl, v.endInfoCode, rfl, he⟩
theorem kwkwk (c : Code) : Statement (.kwkwk c) := fun _ _ _ _ h => .inr ⟨rfl, c, rfl, h⟩
theorem skip (c : Code) : Statement (.skip c) := fun _ _ _ _ h => .inr ⟨rfl, c, rfl, h⟩
theorem bad (c : Code) : Statement (.bad c) := fun _ _ _ _ h => .inr ⟨rfl, c, rfl, h⟩
theorem init (zero : BitVec 3) (order : Order) (n : BitVec 4) : Statement (.init zero order n) :=
  fun _ _ _ _ _ => .inl ⟨rfl, _, rfl⟩
theorem reset (x : BitVec 8) : Statement (.reset x) := fun _ _ _ _ _ => .inl ⟨rfl, _, rfl⟩
theorem push (b : Byte) : Statement (.push b) := fun _ _ _ _ _ => .inl ⟨rfl, _, rfl⟩
theorem deinit (x : BitVec 8) : Statement (.deinit x) := fun _ _ _ _ _ => .inl ⟨rfl, _, rfl⟩
theorem rsvd0 (x : BitVec 8) : Statement (.rsvd0 x) := fun _ _ _ _ _ => .inl ⟨rfl, _, rfl⟩
theorem rsvd5 (x : BitVec 8) : Statement (.rsvd5 x) := fun _ _ _ _ _ => .inl ⟨rfl, _, rfl⟩
theorem rsvd6 (x : BitVec 8) : Statement (.rsvd6 x) := fun _ _ _ _ _ => .inl ⟨rfl, _, rfl⟩
theorem rsvd7 (x : BitVec 8) : Statement (.rsvd7 x) := fun _ _ _ _ _ => .inl ⟨rfl, _, rfl⟩

end Sys2Proof.Laws.CommandOrCode
end

