-- ==== Sys2Proof/Laws/Step.lean ====
section
/-! SUPPORT. What a step can do: one case per input it serves. -/

namespace Sys2Proof.Machine

theorem step_idle {s : State} (h : s.inputs = []) : step s = .next s := by
  unfold step nextInput; simp only [h]

theorem step_command {s : State} {w : CmdWord} {rest : List HostInput} (h : s.inputs = .command w :: rest) :
    step s = exec (decodeCmd w) { s with inputs := rest } := by
  unfold step nextInput; simp only [h]

theorem step_statusRead {s : State} {k : StatusWord} {rest : List HostInput} (h : s.inputs = .statusRead k :: rest) :
    step s = .next (readStatus k { s with inputs := rest }) := by
  unfold step nextInput; simp only [h]

theorem step_resetInput {s : State} {rest : List HostInput} (h : s.inputs = .resetInput :: rest) :
    step s = .next (powerOn { s with inputs := rest }) := by
  unfold step nextInput; simp only [h]

/-- Everything a step can do (R64 (4), R192, R34, R210). -/
theorem step_cases {s t : State} (h : step s = .next t) :
    (s.inputs = [] ∧ t = s) ∨
    (∃ w rest, s.inputs = .command w :: rest ∧ exec (decodeCmd w) { s with inputs := rest } = .next t) ∨
    (∃ k rest, s.inputs = .statusRead k :: rest ∧ t = readStatus k { s with inputs := rest }) ∨
    (∃ rest, s.inputs = .resetInput :: rest ∧ t = powerOn { s with inputs := rest }) := by
  match hi : s.inputs with
  | [] => rw [step_idle hi] at h; cases h; exact .inl ⟨rfl, rfl⟩
  | .command w :: rest => rw [step_command hi] at h; exact .inr (.inl ⟨w, rest, rfl, h⟩)
  | .statusRead k :: rest => rw [step_statusRead hi] at h; cases h; exact .inr (.inr (.inl ⟨k, rest, rfl, rfl⟩))
  | .resetInput :: rest => rw [step_resetInput hi] at h; cases h; exact .inr (.inr (.inr ⟨rest, rfl, rfl⟩))

/-- A command word is decoded as a command: what step executes is never a code class. -/
theorem decodeCmd_isCommand (w : CmdWord) : (decodeCmd w).isCommand = true := by
  unfold decodeCmd decodeInit
  repeat' split
  all_goals rfl

end Sys2Proof.Machine
end

