-- ==== Sys2Proof/Laws/Safety.lean ====
section
/-! SUPPORT. The classes of a code in the terms claims use (rules R76, R140), and which fields the invariants look at. -/

namespace Sys2Proof.Machine

theorem resolvable_iff {s : State} : Resolvable s ↔ ∃ p, prevValue s = some p := by
  simp only [Resolvable, prevValue_eq_some, inDict_iff]
  constructor
  · rintro ⟨q, hq, p, hp⟩; exact ⟨p, q, hq, hp⟩
  · rintro ⟨p, q, hq, hp⟩; exact ⟨q, hq, p, hp⟩

theorem viewOf_resolvable_iff {s : State} {c : Code} : (viewOf s c).resolvable = true ↔ Resolvable s := by
  rw [resolvable_iff]; exact Option.isSome_iff_exists

theorem classOf_kwkwk {s : State} {c : Code} :
    classOf s c = .kwkwk ↔ Unknown s c ∧ Resolvable s ∧ c = s.nextCode := by
  rw [classOf, classify_kwkwk, viewOf_resolvable_iff]; simp only [viewOf, Unknown]; tauto

theorem classOf_skip {s : State} {c : Code} : classOf s c = .skip ↔ Unknown s c ∧ ¬Resolvable s := by
  rw [classOf, classify_skip, ← viewOf_resolvable_iff (c := c)]; simp only [viewOf, Unknown, Bool.not_eq_true]; tauto

theorem classOf_bad {s : State} {c : Code} :
    classOf s c = .bad ↔ Unknown s c ∧ Resolvable s ∧ c ≠ s.nextCode := by
  rw [classOf, classify_bad, viewOf_resolvable_iff]; simp only [viewOf, Unknown]; tauto

/-- A session is a matter of `MAXW`, the code registers, the dictionary and `prevCode` only. -/
theorem Session.congr {s t : State} (h : Session s) (hm : t.maxw = s.maxw) (hn : t.n = s.n)
    (hs : t.codeSize = s.codeSize) (hc : t.clearCode = s.clearCode) (he : t.endInfoCode = s.endInfoCode)
    (hx : t.nextCode = s.nextCode) (hd : t.dict = s.dict)
    (hp : ∀ q : Code, t.prevCode = some q → q.toNat < 2 ^ s.maxw.bits ∧ q ≠ s.endInfoCode) : Session t := by
  have hr : ∀ c, dictRead t c = dictRead s c := fun c => dictRead_congr hm hd c
  have hi : ∀ c, inDict t c = inDict s c := fun c => by simp [inDict, hr]
  obtain ⟨a1, a2, a3, a4, a5, a6, a7, a8, a9, a10, a11, a12, a13, a14, -⟩ := h
  constructor
  all_goals simp only [hm, hn, hs, hc, he, hx, hr, hi]; assumption

/-- The widths are a matter of `MAXW`, the code registers, `prevCode` and BITBUF only. -/
theorem WithinWidths.congr {s t : State} (h : WithinWidths s) (hm : t.maxw = s.maxw) (hc : t.clearCode = s.clearCode)
    (he : t.endInfoCode = s.endInfoCode) (hx : t.nextCode = s.nextCode) (hp : t.prevCode = s.prevCode)
    (hb : t.bitBuf = s.bitBuf) : WithinWidths t := by
  obtain ⟨a1, a2, a3, a4, a5⟩ := h
  constructor <;> simp only [hm, hc, he, hx, hp, hb] <;> assumption

/-- The registers of a session fit their widths (R36, R151), and so does an accumulator of at most `MAXW + 7` bits. -/
theorem Session.withinWidths {s : State} (h : Session s) (hb : s.bitBuf.toNat < 2 ^ s.maxw.bufBits) :
    WithinWidths s := by
  have hdbl : 2 ^ s.maxw.codeBits = 2 ^ s.maxw.bits * 2 := Nat.pow_succ _ _
  have h1 := h.nextLow
  have h2 := h.nextHigh
  have h3 := h.clear
  have h4 := h.endInfo
  refine ⟨by omega, by omega, by omega, fun q hq => ?_, hb⟩
  have := (h.prevCodeLegal q hq).1
  omega

/-- Registers of which nothing is known fit their widths (R38, log 4). -/
theorem withinWidths_forgetRegisters (s : State) : WithinWidths (forgetRegisters s) := by
  refine ⟨codeReg_lt _ _, codeReg_lt _ _, codeReg_lt _ _, fun q hq => ?_, bufReg_lt _ _⟩
  rw [forgetRegisters_prevCode, Option.map_eq_some_iff] at hq
  obtain ⟨c, -, rfl⟩ := hq
  exact codeReg_lt _ _

/-- The invariant does not look at the ports, the inputs and the free-value counter. -/
theorem Inv.congr {s t : State} (h : Inv s) (ha : t.maxw = s.maxw) (hn : t.n = s.n) (hs : t.codeSize = s.codeSize)
    (hc : t.clearCode = s.clearCode) (he : t.endInfoCode = s.endInfoCode) (hx : t.nextCode = s.nextCode)
    (hd : t.dict = s.dict) (hp : t.prevCode = s.prevCode) (hb : t.bitBuf = s.bitBuf) (hk : t.bitCnt = s.bitCnt)
    (hm : t.mode = s.mode) (hr : t.err = s.err) : Inv t := by
  refine ⟨ha ▸ hd ▸ h.memWf, h.widths.congr ha hc he hx hp hb, fun hu => ?_, ?_, ?_, ?_⟩
  · have hS := h.session (hm ▸ hu)
    exact hS.congr ha hn hs hc he hx hd (by rw [hp]; exact hS.prevCodeLegal)
  · rw [ha, hm, hk, hb]; exact h.heldInRun
  · rw [hm, hk, hb]; exact h.heldAfterEnd
  · rw [hr, hm]; exact h.errIffError

/-- The roots, the initial width and the initial free slot make a session (R122, R36). -/
theorem session_resetProc {s : State} (hl : 1 ≤ s.n.toNat) (hh : s.n.toNat ≤ s.maxw.bits - 1)
    (hc : s.clearCode.toNat = 2 ^ s.n.toNat) (he : s.endInfoCode.toNat = 2 ^ s.n.toNat + 1)
    (hp : ∀ q : Code, s.prevCode = some q → q.toNat < 2 ^ s.maxw.bits ∧ q ≠ s.endInfoCode) :
    Session (resetProc s) := by
  have hpow : 2 ^ s.n.toNat ≤ 2 ^ (s.maxw.bits - 1) := Nat.pow_le_pow_right (by norm_num) hh
  have hdbl : 2 ^ s.maxw.bits = 2 ^ (s.maxw.bits - 1) * 2 := by
    rw [← Nat.pow_succ, Nat.succ_eq_add_one, Nat.sub_one_add_one (Nat.ne_of_gt s.maxw.bits_pos)]
  have hge := s.maxw.bits_ge
  have hbig : 2 ^ 2 ≤ 2 ^ (s.maxw.bits - 1) := Nat.pow_le_pow_right (by norm_num) (by omega)
  have hn : (resetProc s).nextCode.toNat = 2 ^ s.n.toNat + 2 := by
    rw [resetProc_nextCode, hc]; exact codeReg_pow_add hh (by omega)
  have hr : ∀ c, dictRead (resetProc s) c =
      if c < 2 ^ s.n.toNat then some (Entry.single (low8 c)) else none := by
    intro c
    rw [dictRead_resetProc]
    by_cases h : c < 2 ^ s.n.toNat
    · rw [if_pos h, if_pos ⟨h, by unfold MaxWidth.slots; omega⟩]
    · rw [if_neg h, if_neg (by tauto)]
  constructor
  case nLow => exact hl
  case nHigh => exact hh
  case clear => exact hc
  case endInfo => exact he
  case widthLow => exact Nat.le_refl _
  case widthHigh => exact hh
  case nextLow => rw [hn, resetProc_clearCode, hc]
  case nextHigh => rw [hn, resetProc_maxw]; omega
  case growBelow =>
    intro h2 _
    have h4 : 2 ^ 2 ≤ 2 ^ s.n.toNat := Nat.pow_le_pow_right (by norm_num) h2
    rw [hn, resetProc_codeSize, Nat.pow_succ]
    omega
  case growAbove => intro _ h; simp at h
  case degenerate =>
    intro h
    rw [hn]
    simp only [resetProc_codeSize, resetProc_n] at h ⊢
    rw [h]
    omega
  case inDictIff =>
    intro c
    simp only [inDict, hr, hn, resetProc_n, resetProc_clearCode, hc]
    by_cases h : c < 2 ^ s.n.toNat <;> simp [h]
  case rootValue => intro c h; rw [hr]; exact if_pos h
  case learnedLength =>
    intro c v h hv
    rw [resetProc_clearCode, hc] at h
    rw [hr, if_neg (by omega)] at hv
    cases hv
  case prevCodeLegal => exact hp

end Sys2Proof.Machine
end

