-- ==== Sys2Proof/Tests/Slice0.lean ====
section
/-! SUPPORT. The model's own tests: ill-formed instructions, words written out from the encodings of spec/30_encoding.md,
single steps against spec/95_test_vectors.md, and for each obligation with hypotheses states that meet them. -/

namespace Sys2Proof.Tests

open Sys2Proof.Machine

/-! ## Helpers -/

/-- The next state of an answer. -/
def nextOf : Answer → Option State
  | .next s => some s
  | .fault _ => none
  | .refused _ => none

/-- A field of the next state of an answer. -/
def after {α : Type} (o : Answer) (f : State → α) : Option α := (nextOf o).map f

/-- The state after `INIT n order` at power-on, in a machine with this `MAXW`. -/
def startedAt (m : MaxWidth) (n : BitVec 4) (order : Order) : State := startSession order n (State.resetAt m)

/-- The state after `INIT n order` at power-on, with the default `MAXW`. -/
def started (n : BitVec 4) (order : Order) : State := startedAt .twelve n order

/-- The state after the codes of a list, executed by R140. -/
def afterCodes (cs : List Code) (s : State) : State :=
  cs.foldl (fun t c => ((nextOf (runCode c t)).getD t)) s

/-- `n = 2` after CLEAR: `prevCode = some(4)`, not resolvable (V1). -/
def cleared : State := afterCodes [4#14] (started 2#4 .lsb)

/-- `n = 2` after the codes 4, 1: `prevCode = some(1)`, resolvable (V3, P4). -/
def rooted : State := afterCodes [4#14, 1#14] (started 2#4 .lsb)

/-- `n = 2` after the codes 4, 0, 1: `dict[6] = [0,1]`, `nextCode = 7` (V2). -/
def learned : State := afterCodes [4#14, 0#14, 1#14] (started 2#4 .lsb)

/-- The full dictionary of V14 by its registers: `nextCode = 4096`, `codeSize = 11`, `prevCode = some(0)`. -/
def full : State := { started 2#4 .lsb with nextCode := 4096#14, codeSize := 11#4, prevCode := some 0#14 }

/-- A session that has ended (R146). -/
def ended : State := { started 2#4 .lsb with mode := .done }

/-- A session with a fault (R186). -/
def faulted : State := { started 2#4 .lsb with mode := .error, err := .badCode }

/-! ## WellFormed: one ill-formed term for each check (R72: no code of the stream is 4096) -/

theorem test_illformed_known : wellFormed .twelve (.known 4096#14) = false := by decide
theorem test_illformed_kwkwk : wellFormed .twelve (.kwkwk 4096#14) = false := by decide
theorem test_illformed_skip : wellFormed .twelve (.skip 8191#14) = false := by decide
theorem test_illformed_bad : wellFormed .twelve (.bad 4096#14) = false := by decide
theorem test_wellformed_code : wellFormed .twelve (.known 4095#14) = true ∧ wellFormed .twelve .clear = true := by decide

/-! ## Decode: command words written out from R85 to R89 (opcode, then operand) -/

-- 001 | 000 0 0010 (V1, 0x102)
theorem test_decode_init_lsb : decodeWord 0b00100000010 = .ok (.init 0#3 .lsb 2#4) := by rfl
-- 001 | 000 1 1000 (P3, 0x118)
theorem test_decode_init_msb : decodeWord 0b00100011000 = .ok (.init 0#3 .msb 8#4) := by rfl
-- 001 | 001 0 0010 (K2, 0x122)
theorem test_decode_init_upper_bits : decodeWord 0b00100100010 = .ok (.init 1#3 .lsb 2#4) := by rfl
-- 010 | 00000000 (K4, 0x200)
theorem test_decode_reset : decodeWord 0b01000000000 = .ok (.reset 0#8) := by rfl
-- 011 | 01001100 (V1, 0x34c)
theorem test_decode_push : decodeWord 0b01101001100 = .ok (.push 0x4c#8) := by rfl
-- 100 | 00000000 (K6, 0x400)
theorem test_decode_deinit : decodeWord 0b10000000000 = .ok (.deinit 0#8) := by rfl
-- K3: 0x000, 0x500, 0x600, 0x7ff
theorem test_decode_rsvd0 : decodeWord 0b00000000000 = .ok (.rsvd0 0#8) := by rfl
theorem test_decode_rsvd5 : decodeWord 0b10100000000 = .ok (.rsvd5 0#8) := by rfl
theorem test_decode_rsvd6 : decodeWord 0b11000000000 = .ok (.rsvd6 0#8) := by rfl
theorem test_decode_rsvd7 : decodeWord 0b11111111111 = .ok (.rsvd7 0xff#8) := by rfl
-- Twelve bits are no command word.
theorem test_decode_too_wide : decodeWord 0b100000000000 = .error (.widerThanCommandPort 2048) := by rfl
theorem test_decode_table_word : decodeTableWord 16 0x34c = some (.push 0x4c#8) := by rfl
theorem test_encode_command :
    encode ⟨false, false, 4#14, 5#14, 6#14⟩ (.init 0#3 .msb 8#4) = .command 0x118#11 ∧
    encode ⟨false, false, 4#14, 5#14, 6#14⟩ (.push 0x4c#8) = .command 0x34c#11 := by decide

/-! ## Decode: codes (R76, R77), for `n = 2` after `INIT` and CLEAR -/

theorem test_decode_known : decodeCode (viewOf cleared 3#14) 3#14 = .known 3#14 := by decide
theorem test_decode_clear : decodeCode (viewOf cleared 4#14) 4#14 = .clear := by decide
theorem test_decode_eoi : decodeCode (viewOf cleared 5#14) 5#14 = .eoi := by decide
theorem test_decode_skip : decodeCode (viewOf cleared 7#14) 7#14 = .skip 7#14 := by decide
theorem test_decode_kwkwk : decodeCode (viewOf rooted 6#14) 6#14 = .kwkwk 6#14 := by decide
theorem test_decode_bad : decodeCode (viewOf rooted 7#14) 7#14 = .bad 7#14 := by decide

/-! ## Stream bits (R60, R73, R74, R92) -/

-- V1: 0x4c gives the stream bits 0,0,1,1,0,0,1,0; the first three are the code 4.
theorem test_bits_of_byte_lsb :
    bitsOfByte .lsb 0x4c#8 = [false, false, true, true, false, false, true, false] := by decide
-- V1b: the same byte in MSB order gives 0,1,0,0,1,1,0,0.
theorem test_bits_of_byte_msb :
    bitsOfByte .msb 0x4c#8 = [false, true, false, false, true, true, false, false] := by decide
theorem test_code_of_bits : codeOfBits .lsb [false, false, true] = 4 ∧ codeOfBits .msb [true, true, false] = 6 := by
  decide
-- V3m: the codes 4, 1, 6, 5 at three bits are the bytes 87 50; V3: in LSB order 8c 0b.
theorem test_bytes_of_bits :
    bytesOfBits .msb 12 ([4, 1, 6, 5].flatMap (bitsOfCode .msb 3)) = [0x87#8, 0x50#8] ∧
    bytesOfBits .lsb 12 ([4, 1, 6, 5].flatMap (bitsOfCode .lsb 3)) = [0x8c#8, 0x0b#8] := by decide

/-! ## Single steps: the code classes -/

-- V2: code 1 after 4, 0 emits [1] and learns dict[6] = [0,1].
theorem test_known_extends :
    after (exec (.known 1#14) (afterCodes [4#14, 0#14] (started 2#4 .lsb)))
      (fun t => (t.cmdOut, dictRead t 6, t.nextCode, t.prevCode)) =
      some ([0#8, 1#8], some ⟨0#8, [1#8]⟩, 7#14, some 1#14) := by decide
-- V2: code 2 brings nextCode to 8 = 2^3, so codeSize becomes 3; V14: a full dictionary emits and learns nothing.
theorem test_known_grows :
    after (exec (.known 2#14) learned) (fun t => (dictRead t 7, t.nextCode, t.codeSize)) =
      some (some ⟨1#8, [2#8]⟩, 8#14, 3#4) ∧
    after (exec (.known 0#14) full) (fun t => (t.cmdOut, t.nextCode, t.codeSize)) =
      some ([0#8], 4096#14, 11#4) := by decide
-- P2: CLEAR after learning: roots only, W = 3, nextCode = 6, prev = some(4).
theorem test_clear :
    after (exec .clear learned) (fun t => (dictRead t 6, dictRead t 3, t.nextCode, t.codeSize, t.prevCode)) =
      some (none, some ⟨3#8, []⟩, 6#14, 2#4, some 4#14) := by decide
-- V1: EOI drops the seven bits that are left.
theorem test_eoi :
    after (exec .eoi { rooted with bitBuf := 0#20, bitCnt := 7#5 }) (fun t => (t.mode, t.bitCnt, t.prevCode)) =
      some (.done, 0#5, some 1#14) := by decide
-- V3: code 6 after 4, 1 emits and stores [1,1].
theorem test_kwkwk :
    after (exec (.kwkwk 6#14) rooted) (fun t => (t.cmdOut, dictRead t 6, t.nextCode, t.prevCode)) =
      some ([1#8, 1#8, 1#8], some ⟨1#8, [1#8]⟩, 7#14, some 6#14) := by decide
-- V8: code 7 directly after the clear code is a SKIP.
theorem test_skip :
    after (exec (.skip 7#14) cleared) (fun t => (t.cmdOut, t.prevCode, t.nextCode, t.err)) =
      some ([], some 7#14, 6#14, .none) := by decide
-- P4: code 7 after 4, 1 is the BadCode fault; the held bits are dropped and prevCode stays.
theorem test_bad :
    after (exec (.bad 7#14) { rooted with bitBuf := 0b0101010#20, bitCnt := 7#5 })
      (fun t => (t.mode, t.err, t.bitBuf, t.bitCnt, t.prevCode)) =
      some (.error, .badCode, 0#20, 0#5, some 1#14) := by decide
-- V15: a root entry above 255 holds its low byte (300 mod 256 = 44).
theorem test_root_low_byte : low8 300 = 44#8 ∧ low8 2047 = 255#8 := by decide

/-! ## Single steps: the commands -/

-- V1: the registers after INIT n=2 LSB.
theorem test_init :
    after (exec (.init 0#3 .lsb 2#4) State.reset)
      (fun t => (t.mode, t.clearCode, t.endInfoCode, t.nextCode, t.codeSize)) =
      some (.run, 4#14, 5#14, 6#14, 2#4) := by decide
-- K2: n = 12 is refused with MAXW = 12; R7, R121: with MAXW = 13 it is accepted, and W = 13 from the start (R143 (b)).
theorem test_init_bound :
    after (exec (.init 0#3 .lsb 12#4) State.reset) (fun t => (t.resp, t.mode)) =
      some (some .refused, .uninit) ∧
    ((initLegal .thirteen 0#3 12#4 = true ∧ initLegal .thirteen 0#3 13#4 = false) ∧
      (latchOperands .lsb 12#4 (State.resetAt .thirteen)).nextCode = 4098#14) := by decide
-- K4: RESET in DONE keeps DONE and prevCode.
theorem test_reset :
    after (exec (.reset 0#8) { learned with mode := .done, prevCode := some 8#14 })
      (fun t => (t.resp, t.nextCode, dictRead t 6, t.mode, t.prevCode)) =
      some (some .ok, 6#14, none, .done, some 8#14) := by decide
-- K8: RESET in ERROR is refused.
theorem test_reset_refused :
    after (exec (.reset 0#8) faulted) (fun t => (t.resp, t.mode)) = some (some .refused, .error) := by decide
-- V1: PUSH 4c takes the codes 4 and 1, emits [1] and holds 01 / 2.
theorem test_push :
    after (exec (.push 0x4c#8) (started 2#4 .lsb)) (fun t => (t.resp, t.cmdOut, t.bitBuf, t.bitCnt, t.prevCode)) =
      some (some .ok, [1#8], 1#20, 2#5, some 1#14) := by decide
-- V3m: PUSH 87 in MSB order holds 11 / 2.
theorem test_push_msb :
    after (exec (.push 0x87#8) (started 2#4 .msb)) (fun t => (t.resp, t.cmdOut, t.bitBuf, t.bitCnt)) =
      some (some .ok, [1#8], 3#20, 2#5) := by decide
-- K6: DEINIT after a session.
theorem test_deinit :
    after (exec (.deinit 0#8) learned) (fun t => (t.resp, t.mode, t.err, t.dict)) =
      some (some .ok, .uninit, .none, []) := by decide
-- K3: the reserved opcodes, in RUN.
theorem test_rsvd0 : after (exec (.rsvd0 0#8) learned) (fun t => (t.resp, t.mode)) = some (some .refused, .run) := by decide
theorem test_rsvd5 : after (exec (.rsvd5 0#8) learned) (fun t => (t.resp, t.mode)) = some (some .refused, .run) := by decide
theorem test_rsvd6 : after (exec (.rsvd6 0#8) learned) (fun t => (t.resp, t.mode)) = some (some .refused, .run) := by decide
theorem test_rsvd7 : after (exec (.rsvd7 0xff#8) learned) (fun t => (t.resp, t.mode)) = some (some .refused, .run) := by
  decide
-- V1, P4: the STATUS words 0x892 and 0x897.
theorem test_status_done :
    statusWord .status { rooted with mode := .done, bitBuf := 0#20, bitCnt := 0#5 } = 0x892#32 := by decide
theorem test_status_error :
    statusWord .status { rooted with mode := .error, err := .badCode, bitBuf := 0#20, bitCnt := 0#5 } = 0x897#32 := by
  decide
-- R34 with MAXW = 13 (log 13): a full dictionary shows nextCode = 8192 in NEXTCODE.
theorem test_status_thirteen :
    statusWord .nextCode { startedAt .thirteen 2#4 .lsb with nextCode := 8192#14 } = 8192#32 ∧
    statusWord .codes (started 2#4 .lsb) = 0x00050004#32 := by decide
-- D1, R142: at nextCode = 4095, codeSize = 11 the width stays 12 with MAXW = 12 and becomes 13 with MAXW = 13.
theorem test_ceiling :
    (grownCodeSize 4096 { State.reset with codeSize := 11#4 } = 11#4) ∧
    (grownCodeSize 4096 { State.resetAt .thirteen with codeSize := 11#4 } = 12#4) := by decide
-- The instruction presented by withFetchWord is the one the next step runs (K1).
theorem test_fetch :
    after (step (State.reset.withFetchWord 16 0x34c)) (fun t => (t.resp, t.mode, t.inputs)) =
      some (some .refused, .uninit, []) := by decide

/-! ## The invariant holds where claims assume it -/

/-- Every session that INIT can start at power-on meets the invariant. -/
theorem inv_startedAt (m : MaxWidth) (n : BitVec 4) (order : Order) (h1 : 1 ≤ n.toNat) (h2 : n.toNat ≤ m.bits - 1) :
    Inv (startedAt m n order) := by
  obtain ⟨hc, he, -⟩ := startSession_codes_toNat (s := State.resetAt m) order h2
  have hS : Session (startedAt m n order) := by
    have h := session_resetProc (s := { latchOperands order n (State.resetAt m) with prevCode := none }) h1 h2 hc he
      (by intro q hq; cases hq)
    exact h.congr rfl rfl rfl rfl rfl rfl rfl (by intro q hq; cases hq)
  refine ⟨Memory.wf_roots _ _, hS.withinWidths (by positivity), fun _ => hS, ?_, ?_, rfl⟩
  · exact fun _ => ⟨Nat.zero_le _, Nat.one_pos⟩
  · rintro (h | h) <;> cases h

theorem witness_inv_lowest : Inv (started 1#4 .lsb) := inv_startedAt _ _ _ (by decide) (by decide)
theorem witness_inv_two : Inv (started 2#4 .lsb) := inv_startedAt _ _ _ (by decide) (by decide)
theorem witness_inv_highest : Inv (started 11#4 .msb) := inv_startedAt _ _ _ (by decide) (by decide)
theorem witness_inv_thirteen : Inv (startedAt .thirteen 12#4 .msb) := inv_startedAt _ _ _ (by decide) (by decide)

/-! ## Witnesses: for each obligation with hypotheses, states and operands that meet them, clause by clause -/

theorem witness_StepRunsTheDecodedCommand :
    ({ State.reset with inputs := [.command 0x102#11] } : State).inputs = .command 0x102#11 :: [] ∧
    decodeWord (0x102#11).toNat = .ok (.init 0#3 .lsb 2#4) ∧
      wellFormed .twelve (.init 0#3 .lsb 2#4) = true := ⟨rfl, rfl, rfl⟩

theorem witness_StepIdlesAndServesStatusReads :
    State.reset.inputs = [] ∧
    ({ State.reset with inputs := [.statusRead .codes] } : State).inputs = .statusRead .codes :: [] := ⟨rfl, rfl⟩

theorem witness_PowerOnLeavesUninit :
    ({ learned with inputs := [.resetInput] } : State).inputs = .resetInput :: [] := rfl

theorem witness_DecodeOfEncodeIsTheInstruction :
    (wellFormed .twelve (.known 4095#14) = true ∧ metIn ⟨true, true, 4#14, 5#14, 4096#14⟩ (.known 4095#14)) ∧
    metIn (viewOf cleared 4#14) .clear ∧ metIn (viewOf cleared 5#14) .eoi ∧
    metIn (viewOf rooted 6#14) (.kwkwk 6#14) ∧ metIn (viewOf cleared 4095#14) (.skip 4095#14) ∧
    metIn (viewOf rooted 7#14) (.bad 7#14) ∧ metIn (viewOf rooted 7#14) (.rsvd7 0xff#8) := by
  refine ⟨⟨by decide, rfl⟩, ?_, ?_, ?_, ?_, ?_, trivial⟩ <;> unfold metIn <;> decide

theorem witness_StreamBitsAndCodeValuesAgree :
    4095 < 2 ^ 12 ∧ 0 < 2 ^ 0 ∧ (bitsOfByte .msb 0x87#8).length = 8 ∧ ([] : List Bool).length = 0 := by decide

theorem witness_AccumulateAppendsTheByteInStreamOrder :
    ((11#5).toNat ≤ State.reset.maxw.bits - 1 ∧ (2047#20).toNat < 2 ^ (11#5).toNat) ∧
    ((started 2#4 .lsb).bitCnt.toNat ≤ State.reset.maxw.bits - 1 ∧
      (started 2#4 .lsb).bitBuf.toNat < 2 ^ (started 2#4 .lsb).bitCnt.toNat) := by decide

theorem witness_TakeCodeTakesTheOldestBits :
    (12 ≤ State.reset.maxw.bits ∧ 12 ≤ (19#5).toNat ∧ (524287#20).toNat < 2 ^ (19#5).toNat ∧
      (524287#20).toNat < 2 ^ State.reset.maxw.bufBits) ∧
    (0 ≤ State.reset.maxw.bits ∧ 0 ≤ (0#5).toNat ∧ (0#20).toNat < 2 ^ (0#5).toNat) := by decide

theorem witness_KnownEmitsAndExtends :
    (learned.mode = .run ∧ dictRead learned (6#14).toNat = some ⟨0#8, [1#8]⟩ ∧ learned.prevCode = some 1#14 ∧
      dictRead learned (1#14).toNat = some ⟨1#8, []⟩ ∧ learned.nextCode.toNat < 2 ^ State.reset.maxw.bits) ∧
    (full.mode = .run ∧ dictRead full (3#14).toNat = some ⟨3#8, []⟩ ∧ 2 ^ State.reset.maxw.bits ≤ full.nextCode.toNat) ∧
    dictRead cleared (3#14).toNat = some ⟨3#8, []⟩ := by decide

theorem cleared_unresolvable : ¬Resolvable cleared := by
  rintro ⟨q, hq, hd⟩
  have h : q = 4#14 := by
    have h4 : cleared.prevCode = some 4#14 := by decide
    rw [h4] at hq
    exact (Option.some.inj hq).symm
  subst h
  revert hd
  decide

theorem rooted_resolvable : Resolvable rooted := ⟨1#14, by decide, by decide⟩

theorem witness_KnownEmitsAndExtends_unresolvable :
    cleared.mode = .run ∧ dictRead cleared (3#14).toNat = some ⟨3#8, []⟩ ∧ ¬Resolvable cleared :=
  ⟨by decide, by decide, cleared_unresolvable⟩

theorem witness_ClearRestoresTheRoots : learned.mode = .run := by decide

theorem witness_EoiEndsTheSession : rooted.mode = .run ∧ ended.mode = .done := by decide

theorem witness_KwkwkLearnsTheEntryItNames :
    rooted.mode = .run ∧ Unknown rooted 6#14 ∧ rooted.prevCode = some 1#14 ∧
    dictRead rooted (1#14).toNat = some ⟨1#8, []⟩ ∧ 6#14 = rooted.nextCode ∧ (6#14).toNat < 2 ^ State.reset.maxw.bits := by
  unfold Unknown; decide

theorem witness_SkipOnlyRecordsTheCode :
    cleared.mode = .run ∧ Unknown cleared 6#14 ∧ Unknown cleared 4095#14 ∧ ¬Resolvable cleared := by
  refine ⟨by decide, ?_, ?_, cleared_unresolvable⟩ <;> unfold Unknown <;> decide

theorem witness_BadCodeFaultIsTaken :
    (rooted.mode = .run ∧ Unknown rooted 7#14 ∧ Resolvable rooted ∧ 7#14 ≠ rooted.nextCode) ∧
    ∃ t, exec (.push 0x55#8) { rooted with bitBuf := 3#20, bitCnt := 2#5 } = .next t ∧ t.mode = .error := by
  refine ⟨⟨by decide, ?_, rooted_resolvable, by decide⟩, ?_⟩
  · unfold Unknown; decide
  · have h : after (exec (.push 0x55#8) { rooted with bitBuf := 3#20, bitCnt := 2#5 }) State.mode = some .error := by
      decide
    revert h
    cases exec (.push 0x55#8) { rooted with bitBuf := 3#20, bitCnt := 2#5 } <;> simp [after, nextOf]

theorem witness_CodesStopWhereNoCodeOfTheClassRuns :
    (Instr.isCommand .clear = false ∧ State.reset.mode ≠ .run) ∧
    (rooted.mode = .run ∧ inDict rooted (6#14).toNat = false) ∧
    ¬(Unknown rooted 7#14 ∧ Resolvable rooted ∧ 7#14 = rooted.nextCode) ∧
    ¬(Unknown rooted 7#14 ∧ ¬Resolvable rooted) ∧
    ¬(Unknown rooted 6#14 ∧ Resolvable rooted ∧ 6#14 ≠ rooted.nextCode) := by
  refine ⟨by decide, by decide, ?_, fun h => h.2 rooted_resolvable, ?_⟩
  · rintro ⟨-, -, h⟩; revert h; decide
  · rintro ⟨-, -, h⟩; revert h; decide

theorem witness_EveryCodeRunsAsItsClass :
    rooted.mode = .run ∧ inDict rooted (3#14).toNat = true ∧
    (inDict rooted (4#14).toNat = false ∧ 4#14 = rooted.clearCode) ∧
    (inDict rooted (5#14).toNat = false ∧ 5#14 ≠ rooted.clearCode ∧ 5#14 = rooted.endInfoCode) ∧
    (Unknown cleared 6#14 ∧ ¬Resolvable cleared) ∧
    (Unknown rooted 6#14 ∧ Resolvable rooted ∧ 6#14 = rooted.nextCode) ∧
    (Unknown rooted 7#14 ∧ 7#14 ≠ rooted.nextCode) := by
  refine ⟨by decide, by decide, by decide, by decide, ⟨?_, cleared_unresolvable⟩, ⟨?_, rooted_resolvable, by decide⟩,
    ?_, by decide⟩ <;> unfold Unknown <;> decide

theorem witness_ExtendGrowsTheWidthAtTheBoundary :
    learned.nextCode.toNat < 2 ^ State.reset.maxw.bits ∧ (4095#14).toNat < 2 ^ State.reset.maxw.bits ∧
    2 ^ State.reset.maxw.bits ≤ full.nextCode.toNat := by decide

theorem witness_WidthGrowsAfterTheCountedExtensions :
    (2 ≤ (started 2#4 .lsb).n.toNat ∧ (started 2#4 .lsb).n.toNat ≤ State.reset.maxw.bits - 2 ∧
      (started 2#4 .lsb).clearCode.toNat = 2 ^ (started 2#4 .lsb).n.toNat ∧
      [Entry.single 0#8, Entry.single 1#8].length ≤ 2 ^ (started 2#4 .lsb).n.toNat - 2) ∧
    [Entry.single 0#8].length ≠ 2 ^ (started 2#4 .lsb).n.toNat - 2 ∧
    (10#4).toNat ≤ State.reset.maxw.bits - 2 := by decide

theorem witness_WidthFollowsTheSchedule :
    (Inv (started 2#4 .lsb) ∧ (started 2#4 .lsb).mode ≠ .uninit ∧ 2 ≤ (started 2#4 .lsb).n.toNat) ∧
    (Inv (started 1#4 .lsb) ∧ (started 1#4 .lsb).mode ≠ .uninit ∧ (started 1#4 .lsb).n.toNat = 1) :=
  ⟨⟨witness_inv_two, by decide, by decide⟩, witness_inv_lowest, by decide, by decide⟩

theorem witness_RootCodesEmitTheirLowByte :
    Inv (started 2#4 .lsb) ∧ (started 2#4 .lsb).mode = .run ∧ (3#14).toNat < 2 ^ (started 2#4 .lsb).n.toNat :=
  ⟨witness_inv_two, by decide, by decide⟩

theorem witness_InitStartsAFreshSession :
    (1 ≤ (1#4).toNat ∧ (1#4).toNat ≤ State.reset.maxw.bits - 1) ∧
      (1 ≤ (11#4).toNat ∧ (11#4).toNat ≤ State.reset.maxw.bits - 1) := by decide

theorem witness_InitWithIllegalOperandIsRefused :
    (0#4).toNat = 0 ∧ State.reset.maxw.bits ≤ (12#4).toNat ∧ 1#3 ≠ 0#3 := by decide

theorem witness_InitForgetsTheEarlierSession :
    1 ≤ (11#4).toNat ∧ State.reset.maxw = learned.maxw ∧ (11#4).toNat ≤ State.reset.maxw.bits - 1 ∧
      learned ≠ State.reset := by decide

theorem witness_ResetCommandRestoresTheDictionary :
    learned.mode = .run ∧ ended.mode = .done ∧ State.reset.mode = .uninit ∧ faulted.mode = .error := by decide

theorem witness_ResetAndInitAreIdempotent :
    (∃ t, exec (.reset 0#8) learned = .next t) ∧
    (1 ≤ (2#4).toNat ∧ (2#4).toNat ≤ State.reset.maxw.bits - 1 ∧ ∃ t, exec (.init 0#3 .lsb 2#4) learned = .next t) :=
  ⟨⟨_, rfl⟩, by decide, by decide, _, rfl⟩

theorem witness_ReservedOpcodesAreRefused :
    Instr.rsvd0 0#8 = .rsvd0 0#8 ∨ Instr.rsvd0 0#8 = .rsvd5 0#8 ∨ Instr.rsvd0 0#8 = .rsvd6 0#8 ∨
      Instr.rsvd0 0#8 = .rsvd7 0#8 := .inl rfl

theorem witness_ExactlyTheListedCommandsAreRefused :
    (Instr.isCommand (.reset 0#8) = true ∧ refusedIn faulted (.reset 0#8) ∧
      ∃ t, exec (.reset 0#8) faulted = .next t) ∧
    (Instr.isCommand (.init 0#3 .lsb 11#4) = true ∧ ¬refusedIn faulted (.init 0#3 .lsb 11#4) ∧
      ∃ t, exec (.init 0#3 .lsb 11#4) faulted = .next t) := by
  refine ⟨⟨rfl, .inr rfl, _, rfl⟩, rfl, ?_, _, rfl⟩
  unfold refusedIn; decide

theorem witness_PushExecutesEveryWholeCode :
    (let s : State := { startedAt .thirteen 12#4 .msb with bitBuf := 4095#20, bitCnt := 12#5 }
     s.mode = .run ∧ 1 ≤ s.n.toNat ∧ s.n.toNat ≤ s.maxw.bits - 1 ∧ 1 ≤ s.codeSize.toNat ∧
     s.codeSize.toNat ≤ s.maxw.bits - 1 ∧ s.bitCnt.toNat ≤ s.maxw.bits - 1 ∧ s.bitBuf.toNat < 2 ^ s.bitCnt.toNat) ∧
    (let s : State := { started 11#4 .msb with bitBuf := 2047#20, bitCnt := 11#5 }
     s.mode = .run ∧ 1 ≤ s.n.toNat ∧ s.n.toNat ≤ s.maxw.bits - 1 ∧ 1 ≤ s.codeSize.toNat ∧
     s.codeSize.toNat ≤ s.maxw.bits - 1 ∧ s.bitCnt.toNat ≤ s.maxw.bits - 1 ∧ s.bitBuf.toNat < 2 ^ s.bitCnt.toNat) ∧
    ended.mode = .done ∧ State.reset.mode = .uninit ∧ faulted.mode = .error := by
  decide

theorem witness_PushLeavesNoWholeCodeWaiting : Inv (started 2#4 .lsb) ∧ (started 2#4 .lsb).mode = .run :=
  ⟨witness_inv_two, by decide⟩

theorem witness_ModeTransitionsFollowTheTable :
    (Instr.isCommand (.push 0x4c#8) = true ∧ ¬refusedIn (started 2#4 .lsb) (.push 0x4c#8) ∧
      ∃ t, exec (.push 0x4c#8) (started 2#4 .lsb) = .next t) ∧
    (refusedIn State.reset (.push 0x4c#8) ∧ ∃ t, exec (.push 0x4c#8) State.reset = .next t) ∧
    (¬refusedIn ended (.push 0xff#8) ∧ ∃ t, exec (.push 0xff#8) ended = .next t) ∧
    (¬refusedIn ended (.deinit 0#8) ∧ ∃ t, exec (.deinit 0#8) ended = .next t) := by
  refine ⟨⟨rfl, ?_, ?_⟩, ⟨.inl rfl, _, rfl⟩, ⟨?_, _, rfl⟩, ?_, _, rfl⟩
  · unfold refusedIn; decide
  · have h : nextOf (exec (.push 0x4c#8) (started 2#4 .lsb)) ≠ none := by decide
    revert h
    cases exec (.push 0x4c#8) (started 2#4 .lsb) <;> simp [nextOf]
  · unfold refusedIn; decide
  · unfold refusedIn; decide

theorem witness_ErrorIsStickyUntilInitOrDeinit :
    faulted.mode = .error ∧ (1 ≤ (1#4).toNat ∧ (11#4).toNat ≤ State.reset.maxw.bits - 1) ∧
    Instr.isCommand (.push 0#8) = true ∧ (∀ zero order n, Instr.push 0#8 ≠ .init zero order n) ∧ ∀ x, Instr.push 0#8 ≠ .deinit x :=
  ⟨rfl, by decide, rfl, fun _ _ _ h => (by cases h), fun _ h => (by cases h)⟩

theorem witness_EveryStepKeepsTheInvariant :
    let s : State := { started 2#4 .lsb with inputs := [.command 0x200#11] }
    Inv s ∧ ∃ t, step s = .next t :=
  ⟨witness_inv_two.congr rfl rfl rfl rfl rfl rfl rfl rfl rfl rfl rfl rfl, _, rfl⟩

theorem witness_NoStepStopsUnderTheInvariant : Inv { started 2#4 .lsb with inputs := [.command 0x34c#11] } :=
  witness_inv_two.congr rfl rfl rfl rfl rfl rfl rfl rfl rfl rfl rfl rfl

theorem witness_EveryStepKeepsTheDictionaryCanonical :
    let s : State := { learned with inputs := [.command 0x200#11] }
    Memory.wf s.maxw s.dict ∧ ∃ t, step s = .next t := ⟨by decide, _, rfl⟩

theorem witness_OnlyInitAndDeinitWriteTheSessionConstants :
    (∃ t, exec .clear learned = .next t) ∧ (∀ zero order n, Instr.clear ≠ .init zero order n) ∧
    ∀ x, Instr.clear ≠ .deinit x :=
  ⟨⟨_, by rfl⟩, fun _ _ _ h => (by cases h), fun _ h => (by cases h)⟩

theorem witness_EntriesNeverChangeUntilCleared :
    Session (started 2#4 .lsb) ∧ Instr.isCommand (.known 1#14) = false ∧ Instr.known 1#14 ≠ .clear ∧
    (∃ t, exec (.known 1#14) (started 2#4 .lsb) = .next t) ∧
    dictRead (started 2#4 .lsb) 3 = some ⟨3#8, []⟩ :=
  ⟨witness_inv_two.session (by decide), rfl, by decide, ⟨_, rfl⟩, by decide⟩

theorem witness_OutputIsOnlyAppendedTo : ∃ t, step State.reset = .next t := ⟨_, rfl⟩

theorem witness_OnlyARunningPushDeliversBytes :
    Instr.isCommand (.push 0xff#8) = true ∧ (∃ t, exec (.push 0xff#8) ended = .next t) ∧
    ∀ b, Instr.push 0xff#8 = .push b → ended.mode ≠ .run :=
  ⟨rfl, ⟨_, rfl⟩, fun _ _ => by decide⟩

theorem witness_StatusPortLayout :
    cleared.mode ≠ .uninit ∧ cleared.prevCode = some 4#14 ∧ (started 2#4 .lsb).prevCode = none ∧
    WithinWidths (startedAt .thirteen 12#4 .msb) :=
  ⟨by decide, by decide, by decide, witness_inv_thirteen.widths⟩

theorem witness_MaxWidthIsConstant :
    (∃ t, step State.reset = .next t) ∧ ∃ t, exec .clear learned = .next t := ⟨⟨_, rfl⟩, _, by rfl⟩

theorem witness_UnspecifiedFieldsAreNeverRead :
    let s₂ : State := { State.reset with n := 7#4, prevCode := some 9#14, bitCnt := 3#5 }
    State.reset.maxw = s₂.maxw ∧ State.reset.mode = .uninit ∧ s₂.mode = .uninit ∧ State.reset.err = s₂.err ∧
    Instr.isCommand (.init 0#3 .lsb 2#4) = true := ⟨rfl, rfl, rfl, rfl, rfl⟩

theorem witness_PushingBytesDecodesTheBitStream :
    Inv (started 2#4 .lsb) ∧ (started 2#4 .lsb).mode = .run ∧
    (started 2#4 .lsb).bitCnt.toNat ≤ (started 2#4 .lsb).codeSize.toNat :=
  ⟨witness_inv_two, by decide, by decide⟩

end Sys2Proof.Tests
end

section
/-! PROOFS. The family 00_scope: a step runs the decoded command (O1), and `MAXW` is a constant of the machine (O38). -/

namespace Sys2Proof.Machine

/-! ## The command port -/

/-- A word of the port is never too wide for it: the decoder reads it as the command table of R85 does. -/
@[simp] theorem decodeWord_toNat (w : CmdWord) : decodeWord w.toNat = .ok (decodeCmd w) := by
  unfold decodeWord
  rw [if_pos w.isLt, BitVec.ofNat_toNat, BitVec.setWidth_eq]

/-! ## The codes -/

/-- A code of the stream is never read as a command (R3, R76). -/
@[simp] theorem decodeCode_isCommand (v : CodeView) (c : Code) : (decodeCode v c).isCommand = false := by
  unfold decodeCode
  cases classify v c <;> rfl

/-- `Exec(c)` is the meaning of the instruction that `c` is in this state (R76, R140). -/
theorem runCode_eq_exec (c : Code) (s : State) : runCode c s = exec (decodeCode (viewOf s c) c) s := by
  unfold runCode decodeCode classOf
  cases classify (viewOf s c) c <;> rfl

/-! ## `MAXW` is constant (R7) -/

/-- No code class writes `MAXW`. -/
theorem exec_code_maxw {i : Instr} {s t : State} (hi : i.isCommand = false) (h : exec i s = .next t) :
    t.maxw = s.maxw := by
  cases i with
  | known c => obtain ⟨-, v, -, rfl⟩ := execKnown_eq_next.1 h; simp
  | clear => obtain ⟨-, rfl⟩ := execClear_eq_next.1 h; simp
  | eoi => obtain ⟨-, rfl⟩ := execEoi_eq_next.1 h; simp
  | kwkwk c => obtain ⟨-, -, p, -, rfl⟩ := execKwkwk_eq_next.1 h; simp
  | skip c => obtain ⟨-, -, rfl⟩ := execSkip_eq_next.1 h; simp
  | bad c => obtain ⟨-, -, rfl⟩ := execBad_eq_next.1 h; simp
  | init | reset | push | deinit | rsvd0 | rsvd5 | rsvd6 | rsvd7 => cases hi

/-- No iteration of the drain loop writes `MAXW`: it takes a code off the accumulator and runs its class. -/
theorem takeAndRun_maxw {s t : State} (h : takeAndRun s = .next t) : t.maxw = s.maxw := by
  obtain ⟨-, hc⟩ := takeAndRun_eq_next.1 h
  rw [runCode_eq_exec] at hc
  rw [exec_code_maxw (decodeCode_isCommand _ _) hc, dropCode_maxw]

theorem drain_maxw {fuel : Nat} {s t : State} (h : drain fuel s = .next t) : t.maxw = s.maxw :=
  drain_keeps (P := fun u => u.maxw = s.maxw) (fun _ _ hu _ hv => (takeAndRun_maxw hv).trans hu) rfl h

theorem execPush_maxw {b : Byte} {s t : State} (h : execPush b s = .next t) : t.maxw = s.maxw := by
  obtain ⟨-, hp⟩ | ⟨-, rfl⟩ | ⟨-, rfl⟩ := execPush_cases h
  · obtain ⟨-, u, hd, rfl⟩ := pushRun_eq_next.1 hp
    simpa using drain_maxw hd
  · simp
  · simp

theorem execReset_maxw (x : BitVec 8) {s t : State} (h : execReset x s = .next t) : t.maxw = s.maxw := by
  obtain ⟨-, rfl⟩ | ⟨-, rfl⟩ := execReset_cases x h <;> simp

theorem execInit_maxw {zero : BitVec 3} {order : Order} {n : BitVec 4} {s t : State}
    (h : execInit zero order n s = .next t) : t.maxw = s.maxw := by
  obtain ⟨-, -, -, rfl⟩ | ⟨-, rfl⟩ := execInit_cases h <;> simp

theorem exec_maxw {i : Instr} {s t : State} (h : exec i s = .next t) : t.maxw = s.maxw := by
  cases i with
  | known | clear | eoi | kwkwk | skip | bad => exact exec_code_maxw rfl h
  | init zero order n => exact execInit_maxw h
  | reset x => exact execReset_maxw x h
  | push b => exact execPush_maxw h
  | deinit | rsvd0 | rsvd5 | rsvd6 | rsvd7 => cases h; rfl

theorem step_maxw {s t : State} (h : step s = .next t) : t.maxw = s.maxw := by
  obtain ⟨-, rfl⟩ | ⟨w, rest, -, he⟩ | ⟨k, rest, -, rfl⟩ | ⟨rest, -, rfl⟩ := step_cases h
  · rfl
  · exact exec_maxw (s := { s with inputs := rest }) he
  · simp
  · simp

/-! ## The obligations -/

/-- Settles O1: the word at the head of the queue decodes, by the table of R85, to the instruction the step runs. -/
theorem stepRunsTheDecodedCommand : Obligations.StepRunsTheDecodedCommand := by
  intro s w rest i hq hd _
  rw [decodeWord_toNat] at hd
  cases hd
  exact step_command hq

/-- Settles O38: every instruction keeps `MAXW` (`exec_maxw`), so every step does, whatever input it serves. -/
theorem maxWidthIsConstant : Obligations.MaxWidthIsConstant :=
  ⟨fun _ _ => step_maxw, fun _ _ _ => exec_maxw⟩

end Sys2Proof.Machine
end

section
/-! PROOFS. The family 10_state, the invariant of R36 (O35, O36, O37, O32). Executing a code keeps a session; the drain loop
of PUSH keeps what holds between two codes and completes with no whole code waiting; so every command, and every step,
answers a next state that meets the invariant. -/

namespace Sys2Proof.Machine

/-! ## A session through one code (R36 items 1 to 6 and 8) -/

/-- Recording a code the stream can carry, other than the end-of-information code, keeps the session (R36 (8)). -/
theorem session_setPrevCode {s : State} {c : Code} (h : Session s) (hc : c.toNat < 2 ^ s.maxw.bits)
    (he : c ≠ s.endInfoCode) : Session (setPrevCode c s) :=
  h.congr rfl rfl rfl rfl rfl rfl rfl fun q hq => by cases hq; exact ⟨hc, he⟩

/-- Emitting is invisible to the session. -/
theorem session_emit {s : State} (v : Entry) (h : Session s) : Session (emit v s) :=
  h.congr rfl rfl rfl rfl rfl rfl rfl h.prevCodeLegal

theorem session_resetProc_of_session {s : State} (h : Session s) : Session (resetProc s) :=
  session_resetProc h.nLow h.nHigh h.clear h.endInfo h.prevCodeLegal

theorem dictRead_addEntry {s : State} (v : Entry) (hroom : s.nextCode.toNat < s.maxw.slots) (c : Nat) :
    dictRead (addEntry v s) c = if c = s.nextCode.toNat then some v else dictRead s c := by
  split
  · rename_i h; subst h; exact dictRead_addEntry_same v hroom
  · rename_i h; exact dictRead_addEntry_other v h

/-- An entry of two bytes or more, and no longer than its slot allows (R36 (6)), extends the session. -/
theorem session_addEntry {s : State} {v : Entry} (h : Session s) (hroom : s.nextCode.toNat < s.maxw.slots)
    (hlo : 2 ≤ v.length) (hhi : v.length ≤ s.nextCode.toNat - s.clearCode.toNat) : Session (addEntry v s) := by
  have hnext := addEntry_nextCode_toNat v hroom
  have hread := dictRead_addEntry v hroom
  have hsize : (addEntry v s).codeSize.toNat = _ := grownCodeSize_toNat (s.nextCode.toNat + 1) s
  have hlow := h.nextLow
  have hclear := h.clear
  constructor
  case nLow => exact h.nLow
  case nHigh => exact h.nHigh
  case clear => exact hclear
  case endInfo => exact h.endInfo
  case widthLow =>
    have := h.widthLow
    rw [hsize, addEntry_n]; split <;> omega
  case widthHigh =>
    have := h.widthHigh
    rw [hsize, addEntry_maxw]; split <;> omega
  case nextLow => rw [hnext, addEntry_clearCode]; omega
  case nextHigh => rw [hnext, addEntry_maxw]; exact hroom
  case growBelow =>
    intro h2 hw
    rw [addEntry_n] at h2
    rw [addEntry_maxw, hsize] at hw
    have hb := h.growBelow h2
    rw [hnext, hsize]
    split at hw
    · rename_i hg; rw [if_pos hg, Nat.pow_succ, ← hg.1]; omega
    · rename_i hg; rw [if_neg hg]; have := hb hw; omega
  case growAbove =>
    intro h2 hw
    rw [addEntry_n] at h2 hw
    rw [hsize] at hw
    have ha := h.growAbove h2
    rw [hnext, hsize]
    split at hw
    · rename_i hg; rw [if_pos hg]; exact hg.1.ge
    · rename_i hg; rw [if_neg hg]; have := ha hw; omega
  case degenerate =>
    intro h1
    obtain ⟨hs, h4⟩ := h.degenerate h1
    rw [hnext, hsize, if_neg (by rw [hs]; omega)]
    omega
  case inDictIff =>
    intro c
    have hi := h.inDictIff c
    simp only [inDict, hread, hnext, addEntry_n, addEntry_clearCode] at hi ⊢
    split
    · simp only [Option.isSome_some, true_iff]; omega
    · rw [hi]; omega
  case rootValue =>
    intro c hc
    rw [addEntry_n] at hc
    rw [hread, if_neg (by omega)]
    exact h.rootValue c hc
  case learnedLength =>
    intro c w hc hw
    rw [addEntry_clearCode] at hc ⊢
    rw [hread] at hw
    split at hw
    · rename_i hcn; cases hw; rw [hcn]; exact ⟨hlo, hhi⟩
    · exact h.learnedLength c w hc hw
  case prevCodeLegal => exact h.prevCodeLegal

/-- The value `prevCode` resolves to leaves room for one more byte at the next free slot (R36 (6)). -/
theorem Session.prevValue_length {s : State} {p : Entry} (h : Session s) (hp : prevValue s = some p) :
    p.length + 1 ≤ s.nextCode.toNat - s.clearCode.toNat := by
  obtain ⟨q, -, hq⟩ := prevValue_eq_some.1 hp
  have hlow := h.nextLow
  rcases (h.inDictIff q.toNat).1 (inDict_iff.2 ⟨p, hq⟩) with hroot | ⟨hl, hn⟩
  · rw [h.rootValue _ hroot] at hq
    cases hq
    rw [Entry.length_single]; omega
  · have := (h.learnedLength _ _ hl hq).2
    omega

/-- Extending by the previous value and one more byte keeps the session, full dictionary or not (R142, R144, R147). -/
theorem session_extend_prev {s : State} {p : Entry} (b : Byte) (h : Session s) (hp : prevValue s = some p) :
    Session (extend (p.snoc b) s) := by
  rcases extend_cases (p.snoc b) s with ⟨-, he⟩ | ⟨hroom, he⟩ <;> rw [he]
  · exact h
  · have hlen := h.prevValue_length hp
    refine session_addEntry h hroom ?_ ?_ <;> rw [Entry.length_snoc]
    · rw [Entry.length]; omega
    · exact hlen

theorem session_extendFromPrev {s : State} (v : Entry) (h : Session s) : Session (extendFromPrev v s) := by
  obtain ⟨-, he⟩ | ⟨p, hp, he⟩ := extendFromPrev_cases v s <;> rw [he]
  · exact h
  · exact session_extend_prev v.first h hp

/-- The clear code fits a code of the stream and is not the end-of-information code (R36 (1)). -/
theorem Session.clearCode_legal {s : State} (h : Session s) :
    s.clearCode.toNat < 2 ^ s.maxw.bits ∧ s.clearCode ≠ s.endInfoCode := by
  have h1 := h.nextLow
  have h2 := h.nextHigh
  have h3 := h.clear
  have h4 := h.endInfo
  exact ⟨by omega, fun he => by rw [he] at h3; omega⟩

/-- A code that is in the dictionary is not the end-of-information code (R36 (5)). -/
theorem Session.ne_endInfoCode {s : State} {c : Code} (h : Session s) (hc : inDict s c.toNat = true) :
    c ≠ s.endInfoCode := by
  rintro rfl
  have h1 := (h.inDictIff _).1 hc
  have h2 := h.clear
  have h3 := h.endInfo
  omega

/-- The next free slot is above the control codes (R36 (3)). -/
theorem Session.nextCode_ne_endInfoCode {s : State} (h : Session s) : s.nextCode ≠ s.endInfoCode := by
  intro he
  have h1 := h.nextLow
  have h2 := h.clear
  have h3 := h.endInfo
  rw [he] at h1
  omega

/-- Whatever class a code of the stream is of, executing it keeps the session. -/
theorem session_runCode {s t : State} {c : Code} (h : Session s) (hc : c.toNat < 2 ^ s.maxw.bits)
    (ht : runCode c s = .next t) : Session t := by
  obtain ⟨-, ⟨v, hv, rfl⟩ | ⟨-, -, rfl⟩ | ⟨-, -, rfl⟩ | ⟨-, hn, p, hp, rfl⟩ | ⟨-, -, he, rfl⟩ | ⟨-, rfl⟩⟩ :=
    runCode_cases ht
  · -- KNOWN
    refine session_setPrevCode (session_extendFromPrev v (session_emit v h)) (by simpa using hc) ?_
    simpa using h.ne_endInfoCode (inDict_iff.2 ⟨v, hv⟩)
  · -- CLEAR
    exact session_setPrevCode (session_resetProc_of_session h) h.clearCode_legal.1 h.clearCode_legal.2
  · -- EOI
    exact h.congr rfl rfl rfl rfl rfl rfl rfl h.prevCodeLegal
  · -- KWKWK
    have hp' : prevValue (emit (p.snoc p.first) s) = some p := (prevValue_congr rfl rfl rfl).trans hp
    refine session_setPrevCode (session_extend_prev _ (session_emit _ h) hp') (by simpa using hc) ?_
    rw [extend_endInfoCode, emit_endInfoCode, hn]
    exact h.nextCode_ne_endInfoCode
  · -- SKIP
    exact session_setPrevCode h hc he
  · -- BAD
    exact h.congr rfl rfl rfl rfl rfl rfl rfl h.prevCodeLegal

/-! ## What else executing a code does -/

/-- Executing a code keeps the canonical form of the dictionary. -/
theorem wf_runCode {s t : State} {c : Code} (h : Memory.wf s.maxw s.dict) (ht : runCode c s = .next t) :
    Memory.wf t.maxw t.dict := by
  obtain ⟨-, ⟨v, -, rfl⟩ | ⟨-, -, rfl⟩ | ⟨-, -, rfl⟩ | ⟨-, -, p, -, rfl⟩ | ⟨-, -, -, rfl⟩ | ⟨-, rfl⟩⟩ :=
    runCode_cases ht
  · -- KNOWN
    obtain ⟨-, he⟩ | ⟨p, -, he⟩ := extendFromPrev_cases v (emit v s) <;>
      rw [setPrevCode_maxw, setPrevCode_dict, he]
    · exact h
    · exact wf_extend _ h
  · -- CLEAR
    exact Memory.wf_roots _ _
  · -- EOI
    exact h
  · -- KWKWK
    exact wf_extend (s := emit _ s) _ h
  · -- SKIP
    exact h
  · -- BAD
    exact h

/-- What executing a code does to MODE, ERR and the accumulator: nothing, or the session ends with an empty accumulator, by
EOI (R146) or by the fault (R186). -/
theorem runCode_mode_cases {s t : State} {c : Code} (h : runCode c s = .next t) :
    (t.mode = .run ∧ t.err = s.err ∧ t.bitBuf = s.bitBuf ∧ t.bitCnt = s.bitCnt) ∨
    ((t.mode = .done ∧ t.err = s.err ∨ t.mode = .error ∧ t.err = .badCode) ∧
      t.bitBuf = 0#Config.bufRoom ∧ t.bitCnt = 0#5) := by
  obtain ⟨hr, ⟨v, -, rfl⟩ | ⟨-, -, rfl⟩ | ⟨-, -, rfl⟩ | ⟨-, -, p, -, rfl⟩ | ⟨-, -, -, rfl⟩ | ⟨-, rfl⟩⟩ :=
    runCode_cases h <;> simp [hr]

theorem runCode_maxw {s t : State} {c : Code} (h : runCode c s = .next t) : t.maxw = s.maxw := by
  rw [runCode_eq_exec] at h
  exact exec_code_maxw (decodeCode_isCommand _ _) h

/-- In `RUN` every code has a class and its meaning completes (R140). -/
theorem runCode_completes {s : State} (c : Code) (hr : s.mode = .run) : ∃ t, runCode c s = .next t := by
  unfold runCode
  cases hc : classOf s c
  case known =>
    obtain ⟨v, hv⟩ := inDict_iff.1 (classify_known.1 hc)
    exact ⟨_, execKnown_of_run hr hv⟩
  case clear => exact ⟨_, execClear_eq_next.2 ⟨hr, rfl⟩⟩
  case eoi => exact ⟨_, execEoi_eq_next.2 ⟨hr, rfl⟩⟩
  case kwkwk =>
    obtain ⟨p, hp⟩ := resolvable_iff.1 (classOf_kwkwk.1 hc).2.1
    exact ⟨_, execKwkwk_eq_next.2 ⟨hr, hc, p, hp, rfl⟩⟩
  case skip => exact ⟨_, execSkip_eq_next.2 ⟨hr, hc, rfl⟩⟩
  case bad => exact ⟨_, execBad_eq_next.2 ⟨hr, hc, rfl⟩⟩

/-! ## Between two codes of one PUSH -/

/-- What holds between two codes of one PUSH: the invariant of the machine, but with an accumulator that may hold up to
`MAXW + 7` bits (R30, R103). -/
structure PushInv (s : State) : Prop where
  memWf : Memory.wf s.maxw s.dict
  session : Session s
  live : s.mode ≠ .uninit
  countBound : s.bitCnt.toNat ≤ s.maxw.bufBits
  heldBound : s.bitBuf.toNat < 2 ^ s.bitCnt.toNat
  heldAfterEnd : s.mode = .done ∨ s.mode = .error → s.bitCnt = 0#5 ∧ s.bitBuf = 0#Config.bufRoom
  errIffError : s.err = if s.mode = .error then .badCode else .none

theorem PushInv.bitBuf_lt {s : State} (h : PushInv s) : s.bitBuf.toNat < 2 ^ s.maxw.bufBits :=
  Nat.lt_of_lt_of_le h.heldBound (Nat.pow_le_pow_right (by norm_num) h.countBound)

/-- A PUSH begins with one byte more than the invariant of the machine allows (R103). -/
theorem pushInv_accumulate {s : State} (b : Byte) (h : Inv s) (hr : s.mode = .run) :
    PushInv (accumulate b (beginCommand s)) := by
  obtain ⟨hcount, hheld⟩ := h.heldInRun hr
  have hS := h.session (by simp [hr])
  have hpos := s.maxw.bits_pos
  have hcnt : (accumulate b (beginCommand s)).bitCnt.toNat = s.bitCnt.toNat + 8 := accumulate_bitCnt_toNat b hcount
  constructor
  case memWf => exact h.memWf
  case session => exact hS.congr rfl rfl rfl rfl rfl rfl rfl hS.prevCodeLegal
  case live => simp [hr]
  case countBound =>
    rw [hcnt]
    show s.bitCnt.toNat + 8 ≤ s.maxw.bits + 7
    omega
  case heldBound => rw [hcnt]; exact (accumulate_bitBuf_toNat (s := beginCommand s) b hcount hheld).2
  case heldAfterEnd => simp [hr]
  case errIffError => exact h.errIffError

/-- Taking a code off the accumulator keeps what holds between two codes (R104). -/
theorem pushInv_dropCode {s : State} {w : Nat} (h : PushInv s) (hr : s.mode = .run) (hw : w ≤ s.bitCnt.toNat) :
    PushInv (dropCode w s) := by
  have hcnt := dropCode_bitCnt_toNat w s
  have hb := h.countBound
  constructor
  case memWf => exact h.memWf
  case session => exact h.session.congr rfl rfl rfl rfl rfl rfl rfl h.session.prevCodeLegal
  case live => exact h.live
  case countBound => rw [hcnt, dropCode_maxw]; omega
  case heldBound => rw [hcnt]; exact (dropCode_bitBuf_toNat hw h.heldBound h.bitBuf_lt).2
  case heldAfterEnd => simp [hr]
  case errIffError => exact h.errIffError

/-- Executing a code of the stream keeps what holds between two codes. -/
theorem pushInv_runCode {s t : State} {c : Code} (h : PushInv s) (hr : s.mode = .run)
    (hc : c.toNat < 2 ^ s.maxw.bits) (ht : runCode c s = .next t) : PushInv t := by
  have herr : s.err = .none := by simpa [hr] using h.errIffError
  have hwf := wf_runCode h.memWf ht
  have hS := session_runCode h.session hc ht
  obtain ⟨hm, he, hbuf, hcnt⟩ | ⟨hm, hbuf, hcnt⟩ := runCode_mode_cases ht
  · refine ⟨hwf, hS, by simp [hm], ?_, ?_, by simp [hm], by simp [hm, he, herr]⟩
    · rw [hcnt, runCode_maxw ht]; exact h.countBound
    · rw [hbuf, hcnt]; exact h.heldBound
  · refine ⟨hwf, hS, ?_, by simp [hcnt], by simp [hcnt, hbuf], fun _ => ⟨hcnt, hbuf⟩, ?_⟩
    · rcases hm with ⟨hm, -⟩ | ⟨hm, -⟩ <;> simp [hm]
    · rcases hm with ⟨hm, he⟩ | ⟨hm, he⟩ <;> simp [hm, he, herr]

/-- An iteration of the drain loop completes, keeps what holds between two codes, and leaves fewer bits (R102, R105). -/
theorem takeAndRun_completes {s : State} (h : PushInv s) (hw : codeWaiting s = true) :
    ∃ t, takeAndRun s = .next t ∧ PushInv t ∧ t.bitCnt.toNat < s.bitCnt.toNat := by
  obtain ⟨hr, hcnt⟩ := codeWaiting_iff.1 hw
  have hwidth : readWidth s ≤ s.maxw.bits := by
    have := h.session.widthHigh
    have := s.maxw.bits_pos
    unfold readWidth; omega
  obtain ⟨t, ht⟩ := runCode_completes (s := dropCode (readWidth s) s) (frontCode (readWidth s) s) hr
  have hfront : (frontCode (readWidth s) s).toNat < 2 ^ s.maxw.bits :=
    Nat.lt_of_lt_of_le (frontCode_toNat hwidth hcnt h.heldBound).2 (Nat.pow_le_pow_right (by norm_num) hwidth)
  have hdrop : (dropCode (readWidth s) s).bitCnt.toNat < s.bitCnt.toNat := by
    rw [dropCode_bitCnt_toNat]; unfold readWidth; omega
  refine ⟨t, takeAndRun_eq_next.2 ⟨hwidth, ht⟩, pushInv_runCode (pushInv_dropCode h hr hcnt) hr hfront ht, ?_⟩
  obtain ⟨-, -, -, hc⟩ | ⟨-, -, hc⟩ := runCode_mode_cases ht <;> rw [hc]
  · exact hdrop
  · exact Nat.zero_lt_of_lt hdrop

/-- The drain loop completes with no whole code waiting: as many iterations as bits are held suffice (R105). -/
theorem drain_completes {fuel : Nat} {s : State} (h : PushInv s) (hf : s.bitCnt.toNat ≤ fuel) :
    ∃ u, drain fuel s = .next u ∧ PushInv u ∧ codeWaiting u = false := by
  induction fuel generalizing s with
  | zero =>
    refine ⟨s, rfl, h, Bool.eq_false_iff.2 fun hw => ?_⟩
    have := (codeWaiting_iff.1 hw).2
    omega
  | succ k ih =>
    by_cases hw : codeWaiting s = true
    · obtain ⟨t, ht, hinv, hlt⟩ := takeAndRun_completes h hw
      rw [drain_take hw, ht]
      exact ih hinv (by omega)
    · rw [Bool.not_eq_true] at hw
      exact ⟨s, drain_stop hw, h, hw⟩

/-- A PUSH in `RUN` completes, and what it leaves meets the invariant between two codes with no whole code waiting. -/
theorem pushRun_completes {s : State} (b : Byte) (h : Inv s) (hr : s.mode = .run) :
    ∃ u, pushRun b s = .next (respondPush u) ∧ PushInv u ∧ codeWaiting u = false := by
  have hacc := h.heldInRun hr
  obtain ⟨u, hu, hinv, hw⟩ := drain_completes (fuel := s.bitCnt.toNat + 8) (pushInv_accumulate b h hr)
    (accumulate_bitCnt_toNat (s := beginCommand s) b hacc.1).le
  exact ⟨u, pushRun_eq_next.2 ⟨accumulatorValid_iff.2 hacc, u, hu, rfl⟩, hinv, hw⟩

/-- In `RUN` with no whole code waiting fewer bits are held than the next code has (R36 (7)). -/
theorem bitCnt_le_codeSize {s : State} (hr : s.mode = .run) (hw : codeWaiting s = false) :
    s.bitCnt.toNat ≤ s.codeSize.toNat := by
  by_contra hlt
  rw [codeWaiting_iff.2 ⟨hr, by omega⟩] at hw
  exact Bool.noConfusion hw

/-! ## The invariant of the machine, update by update -/

/-- With no whole code waiting the accumulator is back within the bounds of R36 (7). -/
theorem PushInv.inv {s : State} (h : PushInv s) (hw : codeWaiting s = false) : Inv s :=
  ⟨h.memWf, h.session.withinWidths h.bitBuf_lt, fun _ => h.session,
    fun hr => ⟨(bitCnt_le_codeSize hr hw).trans h.session.widthHigh, h.heldBound⟩, h.heldAfterEnd, h.errIffError⟩

theorem inv_respond {s : State} (r : Resp) (h : Inv s) : Inv (respond r s) :=
  h.congr rfl rfl rfl rfl rfl rfl rfl rfl rfl rfl rfl rfl

theorem inv_beginCommand {s : State} (h : Inv s) : Inv (beginCommand s) :=
  h.congr rfl rfl rfl rfl rfl rfl rfl rfl rfl rfl rfl rfl

theorem inv_refuse {s : State} (h : Inv s) : Inv (refuse s) := inv_respond _ (inv_beginCommand h)

theorem inv_inputs {s : State} (rest : List HostInput) (h : Inv s) : Inv { s with inputs := rest } :=
  h.congr rfl rfl rfl rfl rfl rfl rfl rfl rfl rfl rfl rfl

theorem inv_readStatus {s : State} (k : StatusWord) (h : Inv s) : Inv (readStatus k s) :=
  h.congr rfl rfl rfl rfl rfl rfl rfl rfl rfl rfl rfl rfl

/-- In `UNINIT` the invariant asks for a canonical dictionary, registers within their widths and `ERR = 0` (R38). -/
theorem inv_of_uninit {s : State} (hm : s.mode = .uninit) (hd : Memory.wf s.maxw s.dict) (hw : WithinWidths s)
    (he : s.err = .none) : Inv s :=
  ⟨hd, hw, fun hu => absurd hm hu, by simp [hm], by simp [hm], by simp [hm, he]⟩

theorem inv_tearDown (s : State) : Inv (tearDown s) :=
  inv_of_uninit rfl (Memory.wf_nil _) ((withinWidths_forgetRegisters s).congr rfl rfl rfl rfl rfl rfl) rfl

theorem inv_powerOn (s : State) : Inv (powerOn s) :=
  inv_of_uninit rfl (Memory.wf_unspecified _ _) ((withinWidths_forgetRegisters s).congr rfl rfl rfl rfl rfl rfl) rfl

/-- Every session that a legal INIT starts meets the invariant, whatever the state was before (R120, R121). -/
theorem inv_startSession {n : BitVec 4} (order : Order) (s : State) (h1 : 1 ≤ n.toNat) (h2 : n.toNat ≤ s.maxw.bits - 1) :
    Inv (startSession order n s) := by
  obtain ⟨hclear, hend, -⟩ := startSession_codes_toNat order h2
  have hS : Session (startSession order n s) :=
    (session_resetProc (s := startSession order n s) h1 h2 hclear hend (by simp)).congr rfl rfl rfl rfl rfl rfl rfl
      (by simp)
  exact ⟨Memory.wf_roots _ _, hS.withinWidths (by simp), fun _ => hS, by simp, by simp, by simp⟩

/-- `Reset()` in a session keeps the invariant: it does not touch the accumulator, MODE and ERR (R122, R123). -/
theorem inv_resetProc {s : State} (h : Inv s) (hm : s.mode ≠ .uninit) : Inv (resetProc s) := by
  have hS := session_resetProc_of_session (h.session hm)
  exact ⟨Memory.wf_roots _ _, hS.withinWidths h.widths.bitBuf, fun _ => hS, h.heldInRun, h.heldAfterEnd, h.errIffError⟩

/-! ## Commands and steps -/

theorem inv_execInit {zero : BitVec 3} {order : Order} {n : BitVec 4} {s t : State} (h : Inv s)
    (ht : execInit zero order n s = .next t) : Inv t := by
  obtain ⟨-, h1, h2, rfl⟩ | ⟨-, rfl⟩ := execInit_cases ht
  · exact inv_respond _ (inv_startSession order _ h1 (Nat.le_sub_one_of_lt h2))
  · exact inv_refuse h

theorem inv_execReset (x : BitVec 8) {s t : State} (h : Inv s) (ht : execReset x s = .next t) : Inv t := by
  obtain ⟨hm, rfl⟩ | ⟨-, rfl⟩ := execReset_cases x ht
  · exact inv_respond _ (inv_resetProc (inv_beginCommand h) (by rcases hm with hm | hm <;> simp [hm]))
  · exact inv_refuse h

theorem inv_execPush {b : Byte} {s t : State} (h : Inv s) (ht : execPush b s = .next t) : Inv t := by
  obtain ⟨hr, hp⟩ | ⟨-, rfl⟩ | ⟨-, rfl⟩ := execPush_cases ht
  · obtain ⟨u, hu, hinv, hw⟩ := pushRun_completes b h hr
    rw [hu] at hp
    cases hp
    exact inv_respond _ (hinv.inv hw)
  · exact inv_respond _ (inv_beginCommand h)
  · exact inv_refuse h

/-- Every command keeps the invariant. -/
theorem inv_exec_command {i : Instr} {s t : State} (h : Inv s) (hi : i.isCommand = true) (ht : exec i s = .next t) :
    Inv t := by
  cases i with
  | known | clear | eoi | kwkwk | skip | bad => cases hi
  | init zero order n => exact inv_execInit h ht
  | reset x => exact inv_execReset x h ht
  | push b => exact inv_execPush h ht
  | deinit => cases ht; exact inv_respond _ (inv_tearDown _)
  | rsvd0 | rsvd5 | rsvd6 | rsvd7 => cases ht; exact inv_refuse h

theorem execPush_of_run {s : State} (b : Byte) (hr : s.mode = .run) : execPush b s = pushRun b s := by
  unfold execPush; rw [hr]

theorem execPush_completes {s : State} (b : Byte) (h : Inv s) : ∃ t, execPush b s = .next t := by
  by_cases hr : s.mode = .run
  · obtain ⟨u, hu, -⟩ := pushRun_completes b h hr
    exact ⟨_, (execPush_of_run b hr).trans hu⟩
  · unfold execPush
    cases hm : s.mode
    case run => exact absurd hm hr
    all_goals exact ⟨_, rfl⟩

/-- Every command answers a next state. -/
theorem exec_command_completes {i : Instr} {s : State} (h : Inv s) (hi : i.isCommand = true) :
    ∃ t, exec i s = .next t := by
  cases i with
  | known | clear | eoi | kwkwk | skip | bad => cases hi
  | init zero order n =>
    show ∃ t, execInit zero order n s = .next t
    unfold execInit; split <;> exact ⟨_, rfl⟩
  | reset x =>
    show ∃ t, execReset x s = .next t
    unfold execReset; split <;> exact ⟨_, rfl⟩
  | push b => exact execPush_completes b h
  | deinit | rsvd0 | rsvd5 | rsvd6 | rsvd7 => exact ⟨_, rfl⟩

/-! ## The obligations -/

/-- Settles O36: each of the inputs a step serves keeps the invariant; PUSH, the hard one, by the invariant that holds
between two codes (`PushInv`) along the drain loop. -/
theorem everyStepKeepsTheInvariant : Obligations.EveryStepKeepsTheInvariant := by
  intro s t h ht
  obtain ⟨-, rfl⟩ | ⟨w, rest, -, he⟩ | ⟨k, rest, -, rfl⟩ | ⟨rest, -, rfl⟩ := step_cases ht
  · exact h
  · exact inv_exec_command (inv_inputs rest h) (decodeCmd_isCommand w) he
  · exact inv_readStatus k (inv_inputs rest h)
  · exact inv_powerOn _

/-- Settles O37: what a step runs is a command, and under the invariant every command completes. -/
theorem noStepStopsUnderTheInvariant : Obligations.NoStepStopsUnderTheInvariant := by
  intro s h
  match hi : s.inputs with
  | [] => exact ⟨_, step_idle hi⟩
  | .command w :: rest =>
    rw [step_command hi]
    exact exec_command_completes (inv_inputs rest h) (decodeCmd_isCommand w)
  | .statusRead k :: rest => exact ⟨_, step_statusRead hi⟩
  | .resetInput :: rest => exact ⟨_, step_resetInput hi⟩

/-- Settles O32: the drain loop completes with no whole code waiting, and the response follows the mode it ends in. -/
theorem pushLeavesNoWholeCodeWaiting : Obligations.PushLeavesNoWholeCodeWaiting := by
  intro s b h hr
  obtain ⟨u, hu, hinv, hw⟩ := pushRun_completes b h hr
  have hresp : (respondPush u).resp = some (if u.mode = .error then .fault else .ok) := respondPush_resp u
  refine ⟨respondPush u, (execPush_of_run b hr).trans hu, fun hm => ?_, fun hm => ?_, fun hm => ?_, hinv.live⟩ <;>
    rw [respondPush_mode] at hm <;> simp only [hm] at hresp
  · exact ⟨bitCnt_le_codeSize hm hw, hresp⟩
  · exact ⟨(hinv.heldAfterEnd (.inl hm)).1, hresp⟩
  · exact ⟨(hinv.heldAfterEnd (.inr hm)).1, hinv.errIffError.trans (if_pos hm), hresp⟩

/-- Settles O35: at power-on the dictionary is empty and the registers are 0, in `UNINIT` with `ERR = 0`. -/
theorem resetMeetsTheInvariant : Obligations.ResetMeetsTheInvariant := by
  intro m
  have hw : WithinWidths (State.resetAt m) := by
    constructor
    case prevCode => intro q hq; cases hq
    all_goals exact Nat.two_pow_pos _
  exact inv_of_uninit rfl (Memory.wf_nil m) hw rfl

end Sys2Proof.Machine
end

section
/-! PROOFS. The family 10_state, the registers and the ports: the session constants (O40), the words of the status port
(O44), idle steps and status reads (O2), and a new session (O25). -/

namespace Sys2Proof.Machine

/-! ## The session constants (R21, R23, R24, R28) -/

/-- `t` has the session constants of `s`: what only INIT and DEINIT write. -/
structure SameConstants (s t : State) : Prop where
  n : t.n = s.n
  order : t.order = s.order
  clearCode : t.clearCode = s.clearCode
  endInfoCode : t.endInfoCode = s.endInfoCode

theorem SameConstants.trans {s t u : State} (h : SameConstants s t) (h' : SameConstants t u) : SameConstants s u :=
  ⟨h'.n.trans h.n, h'.order.trans h.order, h'.clearCode.trans h.clearCode, h'.endInfoCode.trans h.endInfoCode⟩

theorem exec_code_sameConstants {i : Instr} {s t : State} (hi : i.isCommand = false) (h : exec i s = .next t) :
    SameConstants s t := by
  cases i with
  | known c => obtain ⟨-, v, -, rfl⟩ := execKnown_eq_next.1 h; constructor <;> simp
  | clear => obtain ⟨-, rfl⟩ := execClear_eq_next.1 h; constructor <;> simp
  | eoi => obtain ⟨-, rfl⟩ := execEoi_eq_next.1 h; constructor <;> simp
  | kwkwk c => obtain ⟨-, -, p, -, rfl⟩ := execKwkwk_eq_next.1 h; constructor <;> simp
  | skip c => obtain ⟨-, -, rfl⟩ := execSkip_eq_next.1 h; constructor <;> simp
  | bad c => obtain ⟨-, -, rfl⟩ := execBad_eq_next.1 h; constructor <;> simp
  | init | reset | push | deinit | rsvd0 | rsvd5 | rsvd6 | rsvd7 => cases hi

theorem takeAndRun_sameConstants {s t : State} (h : takeAndRun s = .next t) : SameConstants s t := by
  obtain ⟨-, hc⟩ := takeAndRun_eq_next.1 h
  rw [runCode_eq_exec] at hc
  obtain ⟨hn, ho, hclear, hend⟩ := exec_code_sameConstants (decodeCode_isCommand _ _) hc
  exact ⟨hn, ho, hclear, hend⟩

/-- The codes a PUSH executes write no session constant (R154). -/
theorem execPush_sameConstants {b : Byte} {s t : State} (h : execPush b s = .next t) : SameConstants s t := by
  obtain ⟨-, hp⟩ | ⟨-, rfl⟩ | ⟨-, rfl⟩ := execPush_cases h
  · obtain ⟨-, u, hd, rfl⟩ := pushRun_eq_next.1 hp
    have hu : SameConstants s u :=
      drain_keeps (P := SameConstants s) (fun _ _ hv _ hw => hv.trans (takeAndRun_sameConstants hw))
        (s := accumulate b (beginCommand s)) ⟨rfl, rfl, rfl, rfl⟩ hd
    exact hu.trans ⟨rfl, rfl, rfl, rfl⟩
  · exact ⟨rfl, rfl, rfl, rfl⟩
  · exact ⟨rfl, rfl, rfl, rfl⟩

theorem execReset_sameConstants (x : BitVec 8) {s t : State} (h : execReset x s = .next t) : SameConstants s t := by
  obtain ⟨-, rfl⟩ | ⟨-, rfl⟩ := execReset_cases x h <;> exact ⟨rfl, rfl, rfl, rfl⟩

theorem exec_sameConstants {i : Instr} {s t : State} (hinit : ∀ zero order n, i ≠ .init zero order n)
    (hdeinit : ∀ x, i ≠ .deinit x) (h : exec i s = .next t) : SameConstants s t := by
  cases i with
  | known | clear | eoi | kwkwk | skip | bad => exact exec_code_sameConstants rfl h
  | init zero order n => exact absurd rfl (hinit zero order n)
  | reset x => exact execReset_sameConstants x h
  | push b => exact execPush_sameConstants h
  | deinit x => exact absurd rfl (hdeinit x)
  | rsvd0 | rsvd5 | rsvd6 | rsvd7 => cases h; exact ⟨rfl, rfl, rfl, rfl⟩

/-! ## The status port (R34) -/

theorem statusField_live {w : Nat} {s : State} (h : s.mode ≠ .uninit) (x : BitVec w) (free : BitVec 32) :
    statusField (decide (s.mode ≠ .uninit)) x free = x := by
  rw [decide_eq_true h]; rfl

/-- A field of a status word, laid out from bit 0, has no bit above its width. -/
theorem toNat_setWidth_lt {w v : Nat} (hw : w ≤ v) (x : BitVec w) : (x.setWidth v).toNat < 2 ^ w := by
  rw [BitVec.toNat_setWidth_of_le hw]; exact x.isLt

/-- A register that holds no more than its field shows reads as it is. -/
theorem toNat_setWidth_setWidth_of_lt {r w v : Nat} {x : BitVec r} (hw : w ≤ v) (hx : x.toNat < 2 ^ w) :
    ((x.setWidth w).setWidth v).toNat = x.toNat := by
  rw [BitVec.toNat_setWidth_of_le hw, BitVec.toNat_setWidth, Nat.mod_eq_of_lt hx]

/-- The lower of two parts of a word, as a number. -/
theorem toNat_append_mod {a b : Nat} (x : BitVec a) (y : BitVec b) : (x ++ y).toNat % 2 ^ b = y.toNat := by
  rw [BitVec.toNat_append, Nat.or_mod_two_pow, Nat.shiftLeft_eq, Nat.mul_mod_left, Nat.zero_or, Nat.mod_eq_of_lt y.isLt]

/-- The upper of two parts of a word, as a number. -/
theorem toNat_append_div {a b : Nat} (x : BitVec a) (y : BitVec b) : (x ++ y).toNat / 2 ^ b = x.toNat := by
  rw [BitVec.toNat_append, ← Nat.shiftRight_eq_div_pow, Nat.shiftRight_or_distrib, Nat.shiftLeft_shiftRight,
    Nat.shiftRight_eq_div_pow, Nat.div_eq_of_lt y.isLt, Nat.or_zero]

/-- The word CODES, as its two halves. -/
theorem statusWord_codes_halves (s : State) :
    (statusWord .codes s).toNat % 2 ^ 16 = ((statusField (decide (s.mode ≠ .uninit)) (s.clearCode.setWidth s.maxw.codeBits)
      (Config.freeStatus s.freeCtr)).setWidth 16).toNat ∧
    (statusWord .codes s).toNat / 2 ^ 16 = ((statusField (decide (s.mode ≠ .uninit)) (s.endInfoCode.setWidth s.maxw.codeBits)
      (Config.freeStatus s.freeCtr >>> 16)).setWidth 16).toNat :=
  ⟨toNat_append_mod _ _, toNat_append_div _ _⟩

/-- STATUS from the top down: 13 bits of 0, the fields of a session, ERR, MODE (R34). -/
theorem statusWord_status (s : State) :
    statusWord .status s = (0#13 ++ statusField (decide (s.mode ≠ .uninit)) (statusFields s) (Config.freeStatus s.freeCtr)
      ++ s.err.toBits ++ s.mode.toBits : BitVec (13 + 15 + 2 + 2)) := rfl

/-- MODE, ERR and the unused bits of STATUS, in every mode. -/
theorem status_fixedFields (s : State) :
    (statusWord .status s).extractLsb' 0 2 = s.mode.toBits ∧
    (statusWord .status s).extractLsb' 2 2 = s.err.toBits ∧
    (statusWord .status s).extractLsb' 19 13 = 0#13 := by
  rw [statusWord_status]
  refine ⟨?_, ?_, ?_⟩
  · rw [extract_append_low _ _ (by omega), extract_whole]
  · rw [extract_append_high _ _ (by omega), extract_append_low _ _ (by omega), extract_whole]
  · rw [extract_append_high _ _ (by omega), extract_append_high _ _ (by omega), extract_append_high _ _ (by omega),
      extract_whole]

/-- A field of STATUS between ERR and the unused bits is a field of `statusFields` while a session is held. -/
theorem status_liveField {s : State} (hm : s.mode ≠ .uninit) {i w : Nat} (h : 4 ≤ i) (hw : i + w ≤ 19) :
    (statusWord .status s).extractLsb' i w = (statusFields s).extractLsb' (i - 4) w := by
  rw [statusWord_status, statusField_live hm, extract_append_high _ _ (by omega), extract_append_high _ _ (by omega),
    extract_append_low _ _ (by omega)]
  rfl

theorem statusFields_eq (s : State) :
    statusFields s = (s.bitCnt ++ s.codeSize ++ s.n ++ s.order.toBit ++ prevValid s : BitVec (5 + 4 + 4 + 1 + 1)) := rfl

/-- The fields of a session in STATUS, from bit 4 upwards (R34). -/
theorem statusFields_layout (s : State) :
    (statusFields s).extractLsb' 0 1 = prevValid s ∧
    (statusFields s).extractLsb' 1 1 = s.order.toBit ∧
    (statusFields s).extractLsb' 2 4 = s.n ∧
    (statusFields s).extractLsb' 6 4 = s.codeSize ∧
    (statusFields s).extractLsb' 10 5 = s.bitCnt := by
  rw [statusFields_eq]
  refine ⟨?_, ?_, ?_, ?_, ?_⟩
  · rw [extract_append_low _ _ (by omega), extract_whole]
  · rw [extract_append_high _ _ (by omega), extract_append_low _ _ (by omega), extract_whole]
  · rw [extract_append_high _ _ (by omega), extract_append_high _ _ (by omega), extract_append_low _ _ (by omega),
      extract_whole]
  · rw [extract_append_high _ _ (by omega), extract_append_high _ _ (by omega), extract_append_high _ _ (by omega),
      extract_append_low _ _ (by omega), extract_whole]
  · rw [extract_append_high _ _ (by omega), extract_append_high _ _ (by omega), extract_append_high _ _ (by omega),
      extract_append_high _ _ (by omega), extract_whole]

/-- The bits above a code field (`MAXW + 1` bits) or BITBUF (`MAXW + 7`) read 0, in every mode. -/
theorem statusWord_highBits (s : State) :
    (statusWord .nextCode s).toNat < 2 ^ s.maxw.codeBits ∧
    (statusWord .prevCode s).toNat < 2 ^ s.maxw.codeBits ∧
    (statusWord .bitBuf s).toNat < 2 ^ s.maxw.bufBits ∧
    (statusWord .codes s).toNat % 2 ^ 16 < 2 ^ s.maxw.codeBits ∧
    (statusWord .codes s).toNat / 2 ^ 16 < 2 ^ s.maxw.codeBits := by
  have hcode : s.maxw.codeBits ≤ 14 := s.maxw.codeBits_le
  have hbuf : s.maxw.bufBits ≤ 20 := s.maxw.bufBits_le
  obtain ⟨hclear, hend⟩ := statusWord_codes_halves s
  rw [hclear, hend]
  refine ⟨toNat_setWidth_lt (by omega) _, ?_, toNat_setWidth_lt (by omega) _, toNat_setWidth_lt (by omega) _,
    toNat_setWidth_lt (by omega) _⟩
  unfold statusWord
  cases s.prevCode <;> exact toNat_setWidth_lt (by omega) _

/-- While a session is held the four words after STATUS read as their registers (R34). -/
theorem statusWord_registers {s : State} (hm : s.mode ≠ .uninit) (hw : WithinWidths s) :
    (statusWord .nextCode s).toNat = s.nextCode.toNat ∧
    (∀ c, s.prevCode = some c → (statusWord .prevCode s).toNat = c.toNat) ∧
    (statusWord .bitBuf s).toNat = s.bitBuf.toNat ∧
    (statusWord .codes s).toNat % 2 ^ 16 = s.clearCode.toNat ∧
    (statusWord .codes s).toNat / 2 ^ 16 = s.endInfoCode.toNat := by
  have hcode : s.maxw.codeBits ≤ 14 := s.maxw.codeBits_le
  have hbuf : s.maxw.bufBits ≤ 20 := s.maxw.bufBits_le
  obtain ⟨hclear, hend⟩ := statusWord_codes_halves s
  rw [hclear, hend]
  simp only [statusField_live hm]
  refine ⟨?_, fun c hc => ?_, ?_, toNat_setWidth_setWidth_of_lt (by omega) hw.clearCode,
    toNat_setWidth_setWidth_of_lt (by omega) hw.endInfoCode⟩
  · unfold statusWord
    simp only [statusField_live hm]
    exact toNat_setWidth_setWidth_of_lt (by omega) hw.nextCode
  · unfold statusWord
    simp only [statusField_live hm, hc]
    exact toNat_setWidth_setWidth_of_lt (by omega) (hw.prevCode c hc)
  · unfold statusWord
    simp only [statusField_live hm]
    exact toNat_setWidth_setWidth_of_lt (by omega) hw.bitBuf

/-! ## A new session (R40) -/

/-- Every field of R20 in a session just started is a function of `MAXW` and the operand (R120). -/
theorem sameCore_startSession {s₁ s₂ : State} (order : Order) (n : BitVec 4) (h : s₁.maxw = s₂.maxw) :
    SameCore (startSession order n s₁) (startSession order n s₂) := by
  simp [SameCore, h]

/-! ## The obligations -/

/-- Settles O40: every instruction but INIT and DEINIT keeps the session constants, PUSH by induction along its drain loop. -/
theorem onlyInitAndDeinitWriteTheSessionConstants : Obligations.OnlyInitAndDeinitWriteTheSessionConstants := by
  intro s t i h hinit hdeinit
  obtain ⟨hn, horder, hclear, hend⟩ := exec_sameConstants hinit hdeinit h
  exact ⟨hn, horder, hclear, hend⟩

/-- Settles O44: STATUS is an append of its fields, each read back from its place; the other words are registers cut to
their fields. -/
theorem statusPortLayout : Obligations.StatusPortLayout := by
  intro s
  obtain ⟨hmode, herr, hzero⟩ := status_fixedFields s
  obtain ⟨hnext, hprev, hbuf, hlow, hhigh⟩ := statusWord_highBits s
  obtain ⟨hvalid, horder, hn, hsize, hcnt⟩ := statusFields_layout s
  refine ⟨?_, ?_, hzero, hnext, hprev, hbuf, hlow, hhigh, fun hm => ⟨?_, ?_, ?_, ?_, ?_, statusWord_registers hm⟩⟩
  · rw [hmode]; cases s.mode <;> rfl
  · rw [herr]; cases s.err <;> rfl
  · rw [status_liveField hm (by omega) (by omega), hvalid, prevValid]
    cases s.prevCode <;> rfl
  · rw [status_liveField hm (by omega) (by omega), horder]
    cases s.order <;> rfl
  · rw [status_liveField hm (by omega) (by omega), hn]
  · rw [status_liveField hm (by omega) (by omega), hsize]
  · rw [status_liveField hm (by omega) (by omega), hcnt]

/-- Settles O2: the step's two cases that run no instruction; the status words do not look at the queue. -/
theorem stepIdlesAndServesStatusReads : Obligations.StepIdlesAndServesStatusReads :=
  fun _ => ⟨step_idle, fun _ _ => step_statusRead⟩

/-- Settles O25: a legal INIT starts a session in any state, and two sessions it starts agree (`sameCore_startSession`). -/
theorem initForgetsTheEarlierSession : Obligations.InitForgetsTheEarlierSession := by
  intro s₁ s₂ order n hmax h1 h2
  have hpos := s₁.maxw.bits_pos
  have hlt : n.toNat < s₁.maxw.bits := by omega
  exact ⟨_, _, execInit_legal order s₁ h1 hlt, execInit_legal order s₂ h1 (hmax ▸ hlt), 
    sameCore_startSession order n hmax, rfl⟩

end Sys2Proof.Machine
end

section
/-! PROOFS. The family 20_memory, the stream bits: a code value and its bits are two forms of one thing (O8), a byte is
appended to the held bits in stream order (O9), and a code is taken off their old end (R104). The held bits are the bits of
BITBUF as a value of `BITCNT` bits, so the accumulator's arithmetic is read off the value of an append of bits. -/

namespace Sys2Proof

/-! ## A value and its stream bits (R73, R74) -/

@[simp] theorem bitsOfCode_length (o : Order) (w c : Nat) : (bitsOfCode o w c).length = w := by
  cases o <;> simp [bitsOfCode]

/-- The two bit orders lay a value out from its two ends (R60). -/
theorem bitsOfCode_msb (w c : Nat) : bitsOfCode .msb w c = (bitsOfCode .lsb w c).reverse := by
  apply List.ext_getElem
  · simp
  · intro i hi _
    simp [bitsOfCode]

theorem codeOfBits_msb (bits : List Bool) : codeOfBits .msb bits = codeOfBits .lsb bits.reverse := by
  show valueMsb bits = valueLsb bits.reverse
  rw [← valueMsb_reverse, List.reverse_reverse]

/-- Laying out `w` bits of a value keeps it modulo `2^w`. -/
theorem codeOfBits_bitsOfCode (o : Order) (w c : Nat) : codeOfBits o (bitsOfCode o w c) = c % 2 ^ w := by
  cases o with
  | lsb => exact valueLsb_testBit w c
  | msb => rw [codeOfBits_msb, bitsOfCode_msb, List.reverse_reverse]; exact valueLsb_testBit w c

theorem codeOfBits_lt (o : Order) (bits : List Bool) : codeOfBits o bits < 2 ^ bits.length := by
  cases o with
  | lsb => exact valueLsb_lt bits
  | msb => exact valueMsb_lt bits

theorem bitsOfCode_valueLsb (bits : List Bool) : bitsOfCode .lsb bits.length (valueLsb bits) = bits := by
  induction bits with
  | nil => rfl
  | cons b bs ih =>
    have hhead : (b.toNat + 2 * valueLsb bs).testBit 0 = b := by cases b <;> simp [Nat.testBit_zero]
    have htail : (b.toNat + 2 * valueLsb bs) / 2 = valueLsb bs := by have := b.toNat_lt; omega
    have hshift : (fun i => (b.toNat + 2 * valueLsb bs).testBit i) ∘ Nat.succ = fun i => (valueLsb bs).testBit i := by
      funext i
      simp [Nat.testBit_succ, htail]
    simp only [bitsOfCode] at ih ⊢
    rw [List.length_cons, List.range_succ_eq_map, List.map_cons, List.map_map, valueLsb, hhead, hshift, ih]

/-- The value of stream bits is laid out as these bits again. -/
theorem bitsOfCode_codeOfBits (o : Order) (bits : List Bool) : bitsOfCode o bits.length (codeOfBits o bits) = bits := by
  cases o with
  | lsb => exact bitsOfCode_valueLsb bits
  | msb =>
    have h := bitsOfCode_valueLsb bits.reverse
    rw [List.length_reverse] at h
    rw [codeOfBits_msb, bitsOfCode_msb]
    exact (congrArg List.reverse h).trans bits.reverse_reverse

/-! ## Stream bits one after the other -/

theorem codeOfBits_lsb_append (xs ys : List Bool) :
    codeOfBits .lsb (xs ++ ys) = codeOfBits .lsb xs + codeOfBits .lsb ys * 2 ^ xs.length := by
  simp only [codeOfBits]
  rw [← valueMsb_reverse, List.reverse_append, valueMsb_append, valueMsb_reverse, valueMsb_reverse,
    List.length_reverse, Nat.add_comm]

/-- In LSB order the later bits are the more significant ones (R73). -/
theorem bitsOfCode_lsb_append {m x n y : Nat} (hx : x < 2 ^ m) (hy : y < 2 ^ n) :
    bitsOfCode .lsb (m + n) (x + y * 2 ^ m) = bitsOfCode .lsb m x ++ bitsOfCode .lsb n y := by
  have hval : codeOfBits .lsb (bitsOfCode .lsb m x ++ bitsOfCode .lsb n y) = x + y * 2 ^ m := by
    rw [codeOfBits_lsb_append, codeOfBits_bitsOfCode, codeOfBits_bitsOfCode, bitsOfCode_length, Nat.mod_eq_of_lt hx,
      Nat.mod_eq_of_lt hy]
  have hbits := bitsOfCode_codeOfBits .lsb (bitsOfCode .lsb m x ++ bitsOfCode .lsb n y)
  rwa [hval, List.length_append, bitsOfCode_length, bitsOfCode_length] at hbits

/-- In MSB order the later bits are the less significant ones (R74). -/
theorem bitsOfCode_msb_append {m x n y : Nat} (hx : x < 2 ^ m) (hy : y < 2 ^ n) :
    bitsOfCode .msb (m + n) (x * 2 ^ n + y) = bitsOfCode .msb m x ++ bitsOfCode .msb n y := by
  rw [bitsOfCode_msb, bitsOfCode_msb, bitsOfCode_msb, ← List.reverse_append, ← bitsOfCode_lsb_append hy hx,
    Nat.add_comm m n, Nat.add_comm y]

namespace Machine

/-! ## The held stream bits (R101) -/

theorem bitsOfByte_eq_bitsOfCode (o : Order) (b : Byte) : bitsOfByte o b = bitsOfCode o 8 b.toNat := by
  cases o <;> rfl

theorem heldBits_eq_bitsOfCode (s : State) : heldBits s = bitsOfCode s.order s.bitCnt.toNat s.bitBuf.toNat := by
  unfold heldBits
  cases s.order <;> rfl

/-- Accumulate appends the byte's bits to the held ones (R103). -/
theorem heldBits_accumulate {s : State} (b : Byte) (hc : s.bitCnt.toNat ≤ s.maxw.bits - 1)
    (hb : s.bitBuf.toNat < 2 ^ s.bitCnt.toNat) : heldBits (accumulate b s) = heldBits s ++ bitsOfByte s.order b := by
  have hbuf := (accumulate_bitBuf_toNat b hc hb).1
  rw [heldBits_eq_bitsOfCode, heldBits_eq_bitsOfCode, bitsOfByte_eq_bitsOfCode, accumulate_bitCnt_toNat b hc, hbuf,
    accumulate_order]
  cases s.order with
  | lsb => exact bitsOfCode_lsb_append hb b.isLt
  | msb => exact bitsOfCode_msb_append hb b.isLt

/-- TakeCode cuts the held bits at the read width: the oldest bits are the code, the others stay (R104). -/
theorem heldBits_eq_code_append {s : State} {w : Nat} (hw : w ≤ s.maxw.bits) (hc : w ≤ s.bitCnt.toNat)
    (hb : s.bitBuf.toNat < 2 ^ s.bitCnt.toNat) (hf : s.bitBuf.toNat < 2 ^ s.maxw.bufBits) :
    heldBits s = bitsOfCode s.order w (frontCode w s).toNat ++ heldBits (dropCode w s) := by
  obtain ⟨hfront, hfrontlt⟩ := frontCode_toNat hw hc hb
  obtain ⟨hdrop, hdroplt⟩ := dropCode_bitBuf_toNat hc hb hf
  rw [heldBits_eq_bitsOfCode, heldBits_eq_bitsOfCode, dropCode_bitCnt_toNat, dropCode_order]
  cases ho : s.order <;> simp only [ho] at hfront hdrop
  case lsb =>
    have hsplit : s.bitBuf.toNat = (frontCode w s).toNat + (dropCode w s).bitBuf.toNat * 2 ^ w := by
      rw [hfront, hdrop, Nat.mul_comm, Nat.mod_add_div]
    rw [← bitsOfCode_lsb_append hfrontlt hdroplt, ← hsplit, Nat.add_sub_cancel' hc]
  case msb =>
    have hsplit : s.bitBuf.toNat =
        (frontCode w s).toNat * 2 ^ (s.bitCnt.toNat - w) + (dropCode w s).bitBuf.toNat := by
      rw [hfront, hdrop, Nat.mul_comm, Nat.div_add_mod]
    rw [← bitsOfCode_msb_append hfrontlt hdroplt, ← hsplit, Nat.add_sub_cancel' hc]

/-! ## The obligations -/

/-- Settles O8: both directions, in LSB order by induction along the bits; MSB order reads them in reverse. -/
theorem streamBitsAndCodeValuesAgree : Obligations.StreamBitsAndCodeValuesAgree := by
  intro o w c bits
  refine ⟨fun hc => ⟨bitsOfCode_length o w c, ?_⟩, fun hw => ?_⟩
  · rw [codeOfBits_bitsOfCode, Nat.mod_eq_of_lt hc]
  · subst hw
    exact ⟨codeOfBits_lt o bits, bitsOfCode_codeOfBits o bits⟩

/-- Settles O9: the value Accumulate computes is that of the held bits followed by the byte's bits. -/
theorem accumulateAppendsTheByteInStreamOrder : Obligations.AccumulateAppendsTheByteInStreamOrder := by
  intro s b hc hb
  have hcnt := accumulate_bitCnt_toNat b hc
  exact ⟨heldBits_accumulate b hc hb, hcnt, hcnt ▸ (accumulate_bitBuf_toNat b hc hb).2, rfl⟩

end Machine
end Sys2Proof
end

section
/-! PROOFS. The family 20_memory, the dictionary and OUT over a step: the dictionary stays canonical (O39), no code but
CLEAR changes an entry (O41), and OUT is only appended to (O42). -/

namespace Sys2Proof.Machine

/-! ## The canonical form of the dictionary -/

theorem wf_takeAndRun {s t : State} (h : Memory.wf s.maxw s.dict) (ht : takeAndRun s = .next t) :
    Memory.wf t.maxw t.dict :=
  wf_runCode (s := dropCode (readWidth s) s) h (takeAndRun_eq_next.1 ht).2

/-- A PUSH keeps the canonical form, by induction along its drain loop. -/
theorem wf_execPush {b : Byte} {s t : State} (h : Memory.wf s.maxw s.dict) (ht : execPush b s = .next t) :
    Memory.wf t.maxw t.dict := by
  obtain ⟨-, hp⟩ | ⟨-, rfl⟩ | ⟨-, rfl⟩ := execPush_cases ht
  · obtain ⟨-, u, hd, rfl⟩ := pushRun_eq_next.1 hp
    show Memory.wf u.maxw u.dict
    exact drain_keeps (P := fun v => Memory.wf v.maxw v.dict) (fun _ _ hv _ => wf_takeAndRun hv)
      (s := accumulate b (beginCommand s)) h hd
  · exact h
  · exact h

/-- Every command keeps the canonical form: it replaces the dictionary by one that has it, runs codes, or leaves it. -/
theorem wf_exec_command {i : Instr} {s t : State} (h : Memory.wf s.maxw s.dict) (hi : i.isCommand = true)
    (ht : exec i s = .next t) : Memory.wf t.maxw t.dict := by
  cases i with
  | known | clear | eoi | kwkwk | skip | bad => cases hi
  | init zero order n =>
    obtain ⟨-, -, -, rfl⟩ | ⟨-, rfl⟩ := execInit_cases ht
    · exact Memory.wf_roots _ _
    · exact h
  | reset x =>
    obtain ⟨-, rfl⟩ | ⟨-, rfl⟩ := execReset_cases x ht
    · exact Memory.wf_roots _ _
    · exact h
  | push b => exact wf_execPush h ht
  | deinit => cases ht; exact Memory.wf_nil _
  | rsvd0 | rsvd5 | rsvd6 | rsvd7 => cases ht; exact h

/-! ## Entries (R51) -/

/-- The slot Extend writes is free in a session (R36 (5)). -/
theorem Session.dictRead_nextCode {s : State} (h : Session s) : dictRead s s.nextCode.toNat = none := by
  rw [← inDict_false_iff, ← Bool.not_eq_true, h.inDictIff]
  have := h.nextLow
  have := h.clear
  omega

/-- Extend overwrites no entry (R51, R142). -/
theorem dictRead_extend_of_some {s : State} {a : Nat} {v : Entry} (w : Entry) (h : Session s)
    (hv : dictRead s a = some v) : dictRead (extend w s) a = some v := by
  obtain ⟨-, he⟩ | ⟨-, he⟩ := extend_cases w s <;> rw [he]
  · exact hv
  · rwa [dictRead_addEntry_other]
    rintro rfl
    rw [h.dictRead_nextCode] at hv
    cases hv

theorem dictRead_extendFromPrev_of_some {s : State} {a : Nat} {v : Entry} (w : Entry) (h : Session s)
    (hv : dictRead s a = some v) : dictRead (extendFromPrev w s) a = some v := by
  obtain ⟨-, he⟩ | ⟨p, -, he⟩ := extendFromPrev_cases w s <;> rw [he]
  · exact hv
  · exact dictRead_extend_of_some _ h hv

/-! ## OUT (R58) -/

/-- A code appends the bytes it emits to the bytes of its command. -/
theorem outStream_grows_runCode {s t : State} {c : Code} (h : runCode c s = .next t) : outStream s <+: outStream t := by
  obtain ⟨-, ⟨v, -, rfl⟩ | ⟨-, -, rfl⟩ | ⟨-, -, rfl⟩ | ⟨-, -, p, -, rfl⟩ | ⟨-, -, -, rfl⟩ | ⟨-, rfl⟩⟩ :=
    runCode_cases h
  · -- KNOWN
    exact ⟨v.bytes, by simp [outStream]⟩
  · -- CLEAR
    exact List.prefix_rfl
  · -- EOI
    exact List.prefix_rfl
  · -- KWKWK
    exact ⟨(p.snoc p.first).bytes, by simp [outStream]⟩
  · -- SKIP
    exact List.prefix_rfl
  · -- BAD
    exact List.prefix_rfl

/-- The start of a command moves the bytes of the last one, and OUT stays (R11). -/
@[simp] theorem outStream_beginCommand (s : State) : outStream (beginCommand s) = outStream s := by simp [outStream]

@[simp] theorem outStream_refuse (s : State) : outStream (refuse s) = outStream s := outStream_beginCommand s

theorem outStream_grows_takeAndRun {s t : State} (h : takeAndRun s = .next t) : outStream s <+: outStream t :=
  outStream_grows_runCode (s := dropCode (readWidth s) s) (takeAndRun_eq_next.1 h).2

/-- A PUSH appends what its codes emit, by induction along its drain loop. -/
theorem outStream_grows_execPush {b : Byte} {s t : State} (h : execPush b s = .next t) :
    outStream s <+: outStream t := by
  obtain ⟨-, hp⟩ | ⟨-, rfl⟩ | ⟨-, rfl⟩ := execPush_cases h
  · obtain ⟨-, u, hd, rfl⟩ := pushRun_eq_next.1 hp
    have hbegin : outStream s <+: outStream (accumulate b (beginCommand s)) := ⟨[], by simp [outStream]⟩
    show outStream s <+: outStream u
    exact drain_keeps (P := fun v => outStream s <+: outStream v)
      (fun _ _ hv _ hw => hv.trans (outStream_grows_takeAndRun hw)) hbegin hd
  · exact (outStream_beginCommand s).symm ▸ List.prefix_rfl
  · exact (outStream_refuse s).symm ▸ List.prefix_rfl

theorem outStream_grows_exec_command {i : Instr} {s t : State} (hi : i.isCommand = true) (h : exec i s = .next t) :
    outStream s <+: outStream t := by
  cases i with
  | known | clear | eoi | kwkwk | skip | bad => cases hi
  | init zero order n => obtain ⟨-, -, -, rfl⟩ | ⟨-, rfl⟩ := execInit_cases h <;> simp [outStream]
  | reset x => obtain ⟨-, rfl⟩ | ⟨-, rfl⟩ := execReset_cases x h <;> simp [outStream]
  | push b => exact outStream_grows_execPush h
  | deinit | rsvd0 | rsvd5 | rsvd6 | rsvd7 => cases h; simp [outStream]

/-! ## The obligations -/

/-- Settles O39: each of the inputs a step serves keeps the canonical form; PUSH by induction along its drain loop. -/
theorem everyStepKeepsTheDictionaryCanonical : Obligations.EveryStepKeepsTheDictionaryCanonical := by
  intro s t h ht
  obtain ⟨-, rfl⟩ | ⟨w, rest, -, he⟩ | ⟨k, rest, -, rfl⟩ | ⟨rest, -, rfl⟩ := step_cases ht
  · exact h
  · exact wf_exec_command (s := { s with inputs := rest }) h (decodeCmd_isCommand w) he
  · exact h
  · exact Memory.wf_unspecified _ _

/-- Settles O41: only KNOWN and KWKWK write the dictionary, at the next free slot, which holds nothing in a session. -/
theorem entriesNeverChangeUntilCleared : Obligations.EntriesNeverChangeUntilCleared := by
  intro s t i a v h hi hclear ht hv
  cases i with
  | known c =>
    obtain ⟨-, w, -, rfl⟩ := execKnown_eq_next.1 ht
    exact dictRead_extendFromPrev_of_some w (session_emit w h) hv
  | clear => exact absurd rfl hclear
  | eoi => obtain ⟨-, rfl⟩ := execEoi_eq_next.1 ht; exact hv
  | kwkwk c =>
    obtain ⟨-, -, p, -, rfl⟩ := execKwkwk_eq_next.1 ht
    exact dictRead_extend_of_some (p.snoc p.first) (session_emit _ h) hv
  | skip c => obtain ⟨-, -, rfl⟩ := execSkip_eq_next.1 ht; exact hv
  | bad c => obtain ⟨-, -, rfl⟩ := execBad_eq_next.1 ht; exact hv
  | init | reset | push | deinit | rsvd0 | rsvd5 | rsvd6 | rsvd7 => cases hi

/-- Settles O42: a code emits at the end of OUT, so a PUSH does, and no other input touches OUT. -/
theorem outputIsOnlyAppendedTo : Obligations.OutputIsOnlyAppendedTo := by
  intro s t ht
  have hpre : outStream s <+: outStream t := by
    obtain ⟨-, rfl⟩ | ⟨w, rest, -, he⟩ | ⟨k, rest, -, rfl⟩ | ⟨rest, -, rfl⟩ := step_cases ht
    · exact List.prefix_rfl
    · exact outStream_grows_exec_command (s := { s with inputs := rest }) (decodeCmd_isCommand w) he
    · exact List.prefix_rfl
    · exact List.prefix_rfl
  obtain ⟨more, hmore⟩ := hpre
  exact ⟨more, hmore.symm⟩

end Sys2Proof.Machine
end

section
/-! PROOFS. The family 20_memory, the bit stream (O47). Executing a code does not look at the accumulator and the ports, so
the machine and the run of the unsplit stream stay in step code by code: `StreamReaches` says that they are, and every part
of a PUSH keeps it. -/

namespace Sys2Proof.Machine

/-! ## Codes up to the accumulator and the ports -/

/-- A function of the state that looks at neither the accumulator nor the ports is the same in states that agree up to
these. -/
theorem eq_of_bare_eq {α : Type} (f : State → α) (hf : ∀ s, f (bare s) = f s) {a s : State} (h : bare a = bare s) :
    f a = f s := by
  rw [← hf a, h, hf s]

/-- Extend does not look at the accumulator and the ports (R142). -/
theorem bare_extend (v : Entry) (s : State) : bare (extend v s) = extend v (bare s) :=
  apply_ite bare (dictFull s = true) s (addEntry v s)

theorem bare_extendFromPrev (v : Entry) (s : State) : bare (extendFromPrev v s) = extendFromPrev v (bare s) := by
  have hp : prevValue (bare s) = prevValue s := rfl
  unfold extendFromPrev
  rw [hp]
  cases prevValue s with
  | none => rfl
  | some p => exact bare_extend _ s

/-- Emitting appends to OUT, whichever command the bytes belong to (R58). -/
theorem bare_emit (v : Entry) (s : State) :
    bare (emit v s) = { bare s with outEarlier := (bare s).outEarlier ++ v.bytes } := by
  simp [bare, settled, dropBits, emit, outStream]

@[simp] theorem bare_bare (s : State) : bare (bare s) = bare s := by
  simp [bare, settled, dropBits, outStream]

@[simp] theorem bare_beginCommand (s : State) : bare (beginCommand s) = bare s := by
  simp [bare, settled, dropBits, beginCommand, outStream]

/-- The class of a code, and what it does, do not depend on the accumulator and the ports (R76, R140). -/
theorem runCode_of_bare_eq {a s t : State} {c : Code} (h : bare a = bare s) (ht : runCode c s = .next t) :
    ∃ b, runCode c a = .next b ∧ bare b = bare t := by
  have hm : a.mode = s.mode := eq_of_bare_eq State.mode (fun _ => rfl) h
  have hread : dictRead a c.toNat = dictRead s c.toNat := eq_of_bare_eq (dictRead · c.toNat) (fun _ => rfl) h
  have hprev : prevValue a = prevValue s := eq_of_bare_eq prevValue (fun _ => rfl) h
  have hclass : classOf a c = classOf s c := eq_of_bare_eq (classOf · c) (fun _ => rfl) h
  unfold runCode at ht ⊢
  rw [hclass]
  cases hc : classOf s c <;> rw [hc] at ht
  case known =>
    obtain ⟨hr, v, hv, rfl⟩ := execKnown_eq_next.1 ht
    refine ⟨_, execKnown_of_run (hm.trans hr) (hread.trans hv), ?_⟩
    show setPrevCode c (bare _) = setPrevCode c (bare _)
    rw [bare_extendFromPrev, bare_extendFromPrev, bare_emit, bare_emit, h]
  case clear =>
    obtain ⟨hr, rfl⟩ := execClear_eq_next.1 ht
    exact ⟨_, execClear_eq_next.2 ⟨hm.trans hr, rfl⟩,
      congrArg (fun x : State => setPrevCode x.clearCode (resetProc x)) h⟩
  case eoi =>
    obtain ⟨hr, rfl⟩ := execEoi_eq_next.1 ht
    exact ⟨_, execEoi_eq_next.2 ⟨hm.trans hr, rfl⟩, congrArg (fun x : State => { x with mode := .done }) h⟩
  case kwkwk =>
    obtain ⟨hr, -, p, hp, rfl⟩ := execKwkwk_eq_next.1 ht
    refine ⟨_, execKwkwk_eq_next.2 ⟨hm.trans hr, hclass.trans hc, p, hprev.trans hp, rfl⟩, ?_⟩
    show setPrevCode c (bare _) = setPrevCode c (bare _)
    rw [bare_extend, bare_extend, bare_emit, bare_emit, h]
  case skip =>
    obtain ⟨hr, -, rfl⟩ := execSkip_eq_next.1 ht
    exact ⟨_, execSkip_eq_next.2 ⟨hm.trans hr, hclass.trans hc, rfl⟩, congrArg (setPrevCode c) h⟩
  case bad =>
    obtain ⟨hr, -, rfl⟩ := execBad_eq_next.1 ht
    exact ⟨_, execBad_eq_next.2 ⟨hm.trans hr, hclass.trans hc, rfl⟩, congrArg (raiseFault .badCode) h⟩

/-! ## The machine in step with the run of the stream -/

/-- The run of the stream `bits` from `a` passes through a point that is the machine's `s` (up to the accumulator and the
ports), and there, while the session runs, the stream is what `s` holds followed by `more`. -/
def StreamReaches (bits : List Bool) (a : State) (more : List Bool) (s : State) : Prop :=
  ∃ ahead b, (∀ rest u, StreamRun ahead b rest u → StreamRun bits a rest u) ∧ bare b = bare s ∧
    (s.mode = .run → ahead = heldBits s ++ more)

theorem streamReaches_start (more : List Bool) (s : State) : StreamReaches (heldBits s ++ more) (bare s) more s :=
  ⟨_, _, fun _ _ h => h, bare_bare s, fun _ => rfl⟩

theorem StreamReaches.congr {bits more more' : List Bool} {a s t : State} (h : StreamReaches bits a more s)
    (hb : bare t = bare s) (hheld : t.mode = .run → heldBits s ++ more = heldBits t ++ more') :
    StreamReaches bits a more' t := by
  obtain ⟨ahead, b, hrun, hsame, hahead⟩ := h
  have hm : t.mode = s.mode := eq_of_bare_eq State.mode (fun _ => rfl) hb
  exact ⟨ahead, b, hrun, hsame.trans hb.symm, fun hr => (hahead (hm ▸ hr)).trans (hheld hr)⟩

/-- What a code leaves of the held bits while the session runs: the bits after it (R104). -/
theorem heldBits_takeAndRun {s t : State} (ht : takeAndRun s = .next t) (hr : t.mode = .run) :
    heldBits t = heldBits (dropCode (readWidth s) s) := by
  have horder : t.order = s.order := (takeAndRun_sameConstants ht).order
  obtain ⟨-, -, hbuf, hcnt⟩ | ⟨⟨hd, -⟩ | ⟨he, -⟩, -⟩ := runCode_mode_cases (takeAndRun_eq_next.1 ht).2
  · exact heldBits_congr horder hbuf hcnt
  · rw [hr] at hd; cases hd
  · rw [hr] at he; cases he

/-- An iteration of the drain loop executes the next code of the stream (R71, R73, R74, R104). -/
theorem StreamReaches.takeAndRun {bits more : List Bool} {a s t : State} (h : StreamReaches bits a more s)
    (hinv : PushInv s) (hw : codeWaiting s = true) (ht : takeAndRun s = .next t) : StreamReaches bits a more t := by
  obtain ⟨ahead, b, hrun, hsame, hahead⟩ := h
  obtain ⟨hr, hcnt⟩ := codeWaiting_iff.1 hw
  obtain ⟨hwidth, hcode⟩ := takeAndRun_eq_next.1 ht
  obtain ⟨b', hb', hsame'⟩ := runCode_of_bare_eq (s := dropCode (readWidth s) s) hsame hcode
  have hm : b.mode = s.mode := eq_of_bare_eq State.mode (fun _ => rfl) hsame
  have ho : b.order = s.order := eq_of_bare_eq State.order (fun _ => rfl) hsame
  have hsize : b.codeSize.toNat + 1 = readWidth s := eq_of_bare_eq readWidth (fun _ => rfl) hsame
  have hlt := (frontCode_toNat hwidth hcnt hinv.heldBound).2
  have hbits : ahead = bitsOfCode s.order (readWidth s) (frontCode (readWidth s) s).toNat ++
      (heldBits (dropCode (readWidth s) s) ++ more) := by
    rw [hahead hr, heldBits_eq_code_append hwidth hcnt hinv.heldBound hinv.bitBuf_lt, List.append_assoc]
  subst hbits
  refine ⟨heldBits (dropCode (readWidth s) s) ++ more, b', fun rest u hu => hrun rest u ?_, hsame', fun hr' => ?_⟩
  · refine .take _ rest b b' u (frontCode (readWidth s) s) (hm.trans hr) ?_ ?_ ((runCode_eq_exec _ _).symm.trans hb') ?_
    · simp [hsize]
    · rw [hsize, List.take_left' (bitsOfCode_length _ _ _), ho, codeOfBits_bitsOfCode, Nat.mod_eq_of_lt hlt]
    · rw [hsize, List.drop_left' (bitsOfCode_length _ _ _)]; exact hu
  · rw [heldBits_takeAndRun ht hr']

theorem pushInv_takeAndRun {s t : State} (h : PushInv s) (hw : codeWaiting s = true) (ht : takeAndRun s = .next t) :
    PushInv t := by
  obtain ⟨u, hu, hinv, -⟩ := takeAndRun_completes h hw
  rw [ht] at hu
  cases hu
  exact hinv

theorem StreamReaches.drain {bits more : List Bool} {a s t : State} {fuel : Nat} (h : StreamReaches bits a more s)
    (hinv : PushInv s) (ht : drain fuel s = .next t) : StreamReaches bits a more t :=
  (drain_keeps (P := fun u => PushInv u ∧ StreamReaches bits a more u)
    (fun _ _ hu hw hv => ⟨pushInv_takeAndRun hu.1 hw hv, hu.2.takeAndRun hu.1 hw hv⟩) ⟨hinv, h⟩ ht).2

/-- A PUSH, accepted or not, leaves the machine in step with the stream, with its byte's bits behind it (R60, R102). -/
theorem StreamReaches.execPush {bits more : List Bool} {a s t : State} {b : Byte} (hinv : Inv s)
    (h : StreamReaches bits a (bitsOfByte s.order b ++ more) s) (ht : execPush b s = .next t) :
    StreamReaches bits a more t := by
  obtain ⟨hr, hp⟩ | ⟨hm, rfl⟩ | ⟨hm, rfl⟩ := execPush_cases ht
  · obtain ⟨-, u, hd, rfl⟩ := pushRun_eq_next.1 hp
    obtain ⟨hcount, hheld⟩ := hinv.heldInRun hr
    have hacc : StreamReaches bits a more (accumulate b (beginCommand s)) :=
      h.congr (bare_beginCommand s) fun _ => by
        rw [heldBits_accumulate (s := beginCommand s) b hcount hheld, List.append_assoc]; rfl
    exact (hacc.drain (pushInv_accumulate b hinv hr) hd).congr rfl fun _ => rfl
  · exact h.congr (bare_beginCommand s) fun hr => by cases hm.symm.trans hr
  · exact h.congr (bare_beginCommand s) fun hr => by rcases hm with hm | hm <;> cases hm.symm.trans hr

/-- A PUSH that leaves the session running leaves no whole code waiting and answers `OK` (R36 (7), R102). -/
theorem execPush_running {b : Byte} {s t : State} (hinv : Inv s) (ht : execPush b s = .next t) (hr : t.mode = .run) :
    t.bitCnt.toNat ≤ t.codeSize.toNat ∧ t.resp = some .ok := by
  obtain ⟨hm, -⟩ | ⟨hm, rfl⟩ | ⟨hm, rfl⟩ := execPush_cases ht
  · obtain ⟨u, hu, hrun, -⟩ := pushLeavesNoWholeCodeWaiting s b hinv hm
    cases ht.symm.trans hu
    exact hrun hr
  · cases hm.symm.trans hr
  · rcases hm with hm | hm <;> cases hm.symm.trans hr

/-- Pushing bytes completes, and the machine stays in step with the stream; while the session runs all bytes have been
pushed (R94, R105). -/
theorem StreamReaches.decodeChunk {bits : List Bool} {a s : State} {bytes : List Byte} (hinv : Inv s)
    (hheld : s.mode = .run → s.bitCnt.toNat ≤ s.codeSize.toNat)
    (h : StreamReaches bits a (bytes.flatMap (bitsOfByte s.order)) s) :
    ∃ t more, decodeChunk bytes s = .next t ∧ StreamReaches bits a more t ∧
      (t.mode = .run → more = [] ∧ t.bitCnt.toNat ≤ t.codeSize.toNat) := by
  induction bytes generalizing s with
  | nil => exact ⟨s, [], rfl, h, fun hr => ⟨rfl, hheld hr⟩⟩
  | cons b bs ih =>
    obtain ⟨t, ht⟩ := execPush_completes b hinv
    have hreach := StreamReaches.execPush hinv h ht
    have hrun := execPush_running hinv ht
    show ∃ u more, andThen (Machine.execPush b s) _ = .next u ∧ _
    rw [ht, andThen_next]
    by_cases hok : t.resp = some .ok
    · rw [if_pos hok]
      rw [← (execPush_sameConstants ht).order] at hreach
      exact ih (inv_execPush hinv ht) (fun hr => (hrun hr).1) hreach
    · rw [if_neg hok]
      exact ⟨t, _, rfl, hreach, fun hr => absurd (hrun hr).2 hok⟩

/-- Where the machine stops, the run of the stream stops (R105). -/
theorem StreamReaches.stop {bits more : List Bool} {a t : State} (h : StreamReaches bits a more t)
    (hend : t.mode = .run → more = [] ∧ t.bitCnt.toNat ≤ t.codeSize.toNat) :
    ∃ rest u, StreamRun bits a rest u ∧ bare u = bare t ∧ (t.mode = .run → rest = heldBits t) := by
  obtain ⟨ahead, b, hrun, hsame, hahead⟩ := h
  have hm : b.mode = t.mode := eq_of_bare_eq State.mode (fun _ => rfl) hsame
  have hsize : b.codeSize = t.codeSize := eq_of_bare_eq State.codeSize (fun _ => rfl) hsame
  have hrest : t.mode = .run → ahead = heldBits t := fun hr => by rw [hahead hr, (hend hr).1, List.append_nil]
  refine ⟨ahead, b, hrun _ _ (.stop ahead b ?_), hsame, hrest⟩
  rintro ⟨hr, hlen⟩
  rw [hm] at hr
  rw [hrest hr, heldBits_length, hsize] at hlen
  have := (hend hr).2
  omega

/-! ## The obligation -/

/-- Settles O47: every PUSH keeps the machine in step with the run of the stream, by induction over the bytes. -/
theorem pushingBytesDecodesTheBitStream : Obligations.PushingBytesDecodesTheBitStream := by
  intro s bytes hinv _ hheld
  obtain ⟨t, more, ht, hreach, hend⟩ :=
    StreamReaches.decodeChunk hinv (fun _ => hheld) (streamReaches_start (bytes.flatMap (bitsOfByte s.order)) s)
  obtain ⟨rest, u, hrun, hsame, hrest⟩ := hreach.stop hend
  exact ⟨t, rest, u, ht, hrun, hsame, hrest⟩

end Sys2Proof.Machine
end

section
/-! PROOFS. The family 30_encoding, the encodings: decode and encode are inverse to each other (O6, O7), with the sample
words and codes of the spec (O4, O5), and TakeCode in the terms of R73 and R74 (O10). -/

namespace Sys2Proof.Machine

/-! ## Codes (R76) -/

/-- A code that a state can meet as an instruction is read as it: the condition of its class is the classification's. -/
theorem decode_encode_code {v : CodeView} {i : Instr} (hi : i.isCommand = false) (hm : metIn v i) :
    decode v (encode v i) = i := by
  cases i with
  | known c => rw [encode, decode, decodeCode, classify_known.2 hm]
  | clear => rw [encode, decode, decodeCode, classify_clear.2 ⟨hm, rfl⟩]
  | eoi =>
    obtain ⟨hd, hne⟩ := hm
    rw [encode, decode, decodeCode, classify_eoi.2 ⟨hd, hne, rfl⟩]
  | kwkwk c => rw [encode, decode, decodeCode, classify_kwkwk.2 hm]
  | skip c => rw [encode, decode, decodeCode, classify_skip.2 hm]
  | bad c => rw [encode, decode, decodeCode, classify_bad.2 hm]
  | init | reset | push | deinit | rsvd0 | rsvd5 | rsvd6 | rsvd7 => cases hi

/-- The code value survives, the control codes included: CLEAR and EOI are read off nothing but their values. -/
theorem encode_decodeCode (v : CodeView) (c : Code) : encode v (decodeCode v c) = .code c := by
  unfold decodeCode
  cases h : classify v c
  case clear => exact congrArg Encoded.code (classify_clear.1 h).2.symm
  case eoi =>
    obtain ⟨-, -, hc⟩ := classify_eoi.1 h
    exact congrArg Encoded.code hc.symm
  all_goals rfl

/-! ## Command words (R85 to R89) -/

/-- A command word is read back by its opcode, INIT's operand by its fields. -/
theorem decode_encode_command (v : CodeView) {i : Instr} (hi : i.isCommand = true) : decode v (encode v i) = i := by
  cases i with
  | known | clear | eoi | kwkwk | skip | bad => cases hi
  | init zero order n => simp [encode, decode, decodeCmd, decodeInit_encodeInitOperand]
  | reset | push | deinit | rsvd0 | rsvd5 | rsvd6 | rsvd7 => simp [encode, decode, decodeCmd]

theorem cmdWord_of_opcode {w : CmdWord} {o : BitVec 3} (h : cmdOpcode w = o) : cmdWord o (cmdOperand w) = w := by
  rw [← h, cmdWord_fields]

/-- The seven opcodes the command table of R85 tests leave `0b111`. -/
theorem opcode_eq_seven {o : BitVec 3} (h1 : o ≠ 0b001#3) (h2 : o ≠ 0b010#3) (h3 : o ≠ 0b011#3) (h4 : o ≠ 0b100#3)
    (h0 : o ≠ 0b000#3) (h5 : o ≠ 0b101#3) (h6 : o ≠ 0b110#3) : o = 0b111#3 := by
  bv_omega

/-- Every command keeps its opcode, and its operand whole, the ignored bits included. -/
theorem encode_decodeCmd (v : CodeView) (w : CmdWord) : encode v (decodeCmd w) = .command w := by
  unfold decodeCmd
  split_ifs with h1 h2 h3 h4 h0 h5 h6
  · refine congrArg Encoded.command ?_
    rw [encodeInitOperand_fields]
    exact cmdWord_of_opcode h1
  · exact congrArg Encoded.command (cmdWord_of_opcode h2)
  · exact congrArg Encoded.command (cmdWord_of_opcode h3)
  · exact congrArg Encoded.command (cmdWord_of_opcode h4)
  · exact congrArg Encoded.command (cmdWord_of_opcode h0)
  · exact congrArg Encoded.command (cmdWord_of_opcode h5)
  · exact congrArg Encoded.command (cmdWord_of_opcode h6)
  · exact congrArg Encoded.command (cmdWord_of_opcode (opcode_eq_seven h1 h2 h3 h4 h0 h5 h6))

/-! ## The obligations -/

/-- Settles O6: a code by the condition of its class, a command by the fields of its word. -/
theorem decodeOfEncodeIsTheInstruction : Obligations.DecodeOfEncodeIsTheInstruction := by
  intro m v i _ hm
  cases hi : i.isCommand
  case false => exact decode_encode_code hi hm
  case true => exact decode_encode_command v hi

/-- Settles O7: a command word is made of its opcode and its operand, and an instruction of the stream keeps its code. -/
theorem encodeOfDecodeIsTheWord : Obligations.EncodeOfDecodeIsTheWord := by
  intro v e
  cases e with
  | command w => exact encode_decodeCmd v w
  | code c => exact encode_decodeCode v c

/-- Settles O10: the held bits are the code's bits followed by what is left (`heldBits_eq_code_append`). -/
theorem takeCodeTakesTheOldestBits : Obligations.TakeCodeTakesTheOldestBits := by
  intro s w hw hc hb hf
  have hheld := heldBits_eq_code_append hw hc hb hf
  have hlt := (frontCode_toNat hw hc hb).2
  refine ⟨?_, ?_, dropCode_bitCnt_toNat w s, (dropCode_bitBuf_toNat hc hb hf).2, rfl⟩
  · rw [hheld, List.take_left' (bitsOfCode_length _ _ _), codeOfBits_bitsOfCode, Nat.mod_eq_of_lt hlt]
  · rw [hheld, List.drop_left' (bitsOfCode_length _ _ _)]

/-- Settles O4: the words of the examples, each run through the decoder. -/
theorem sampleCommandWordsDecode : Obligations.SampleCommandWordsDecode := by
  unfold Obligations.SampleCommandWordsDecode
  decide

/-- Settles O5: the rows of R77, each run through the classification. -/
theorem sampleCodesClassify : Obligations.SampleCodesClassify := by
  unfold Obligations.SampleCodesClassify
  decide

end Sys2Proof.Machine
end

section
/-! PROOFS. The family 30_encoding, the machine's side of it: the width schedule of a session (O21), which commands deliver
bytes (O43), and the reserved opcodes (O29). -/

namespace Sys2Proof.Machine

/-! ## The width schedule (R79) -/

/-- The width counter has grown only as far as `nextCode` has: at its initial value the root codes are below, and later the
growth rule says so (R36 (4)). -/
theorem Session.two_pow_codeSize_le {s : State} (h : Session s) (h2 : 2 ≤ s.n.toNat) :
    2 ^ s.codeSize.toNat ≤ s.nextCode.toNat := by
  rcases h.widthLow.eq_or_lt with heq | hlt
  · have := h.nextLow
    have := h.clear
    rw [← heq]
    omega
  · exact h.growAbove h2 hlt

/-- Below the ceiling the width counter is the position of the top bit of `nextCode`. -/
theorem Session.log2_nextCode {s : State} (h : Session s) (h2 : 2 ≤ s.n.toNat)
    (hw : s.codeSize.toNat < s.maxw.bits - 1) : Nat.log2 s.nextCode.toNat = s.codeSize.toNat := by
  have hlow := h.two_pow_codeSize_le h2
  have hpos : 0 < 2 ^ s.codeSize.toNat := by positivity
  exact (Nat.log2_eq_iff (by omega)).2 ⟨hlow, h.growBelow h2 hw⟩

/-! ## The commands that deliver no bytes (R90) -/

/-- The command whose answer is `t`, met in `s`, delivered no bytes. -/
def DeliversNothing (s t : State) : Prop := t.cmdOut = [] ∧ outStream t = outStream s

theorem deliversNothing_refuse (s : State) : DeliversNothing s (refuse s) := ⟨rfl, outStream_refuse s⟩

/-- An accepted command that leaves OUT where the start of the command put it delivers nothing. -/
theorem deliversNothing_of_begun {s t : State} (ho : t.outEarlier = (beginCommand s).outEarlier)
    (hc : t.cmdOut = (beginCommand s).cmdOut) : DeliversNothing s t := by
  refine ⟨hc, ?_⟩
  rw [← outStream_beginCommand s, outStream, ho, hc]
  rfl

/-! ## The obligations -/

/-- Settles O21: below the ceiling the width counter is `floor(log2(nextCode))`, and at the ceiling `nextCode` has reached
`2^(MAXW - 1)`. -/
theorem widthFollowsTheSchedule : Obligations.WidthFollowsTheSchedule := by
  intro s hinv hm
  have h := hinv.session hm
  refine ⟨fun h2 => ?_, fun h1 => congrArg (· + 1) (h.degenerate h1).1⟩
  have hpos := s.maxw.bits_pos
  rcases h.widthHigh.lt_or_eq with hlt | heq
  · rw [h.log2_nextCode h2 hlt, readWidth]
    omega
  · have hlow := h.two_pow_codeSize_le h2
    have hone : 0 < 2 ^ s.codeSize.toNat := by positivity
    have hlog := (Nat.le_log2 (by omega)).2 hlow
    rw [readWidth]
    omega

/-- Settles O43: a refused command and an accepted one that runs no code leave OUT as the start of the command did. -/
theorem onlyARunningPushDeliversBytes : Obligations.OnlyARunningPushDeliversBytes := by
  intro s t i hi ht hpush
  show DeliversNothing s t
  cases i with
  | known | clear | eoi | kwkwk | skip | bad => cases hi
  | init zero order n =>
    obtain ⟨-, -, -, rfl⟩ | ⟨-, rfl⟩ := execInit_cases ht
    · exact deliversNothing_of_begun rfl rfl
    · exact deliversNothing_refuse s
  | reset x =>
    obtain ⟨-, rfl⟩ | ⟨-, rfl⟩ := execReset_cases x ht
    · exact deliversNothing_of_begun rfl rfl
    · exact deliversNothing_refuse s
  | push b =>
    obtain ⟨hr, -⟩ | ⟨-, rfl⟩ | ⟨-, rfl⟩ := execPush_cases ht
    · exact absurd hr (hpush b rfl)
    · exact deliversNothing_of_begun rfl rfl
    · exact deliversNothing_refuse s
  | deinit => cases ht; exact deliversNothing_of_begun rfl rfl
  | rsvd0 | rsvd5 | rsvd6 | rsvd7 => cases ht; exact deliversNothing_refuse s

/-- Settles O29: the meaning of each reserved opcode is the refusal, which writes the ports only. -/
theorem reservedOpcodesAreRefused : Obligations.ReservedOpcodesAreRefused := by
  rintro s x i (rfl | rfl | rfl | rfl) <;> rfl

end Sys2Proof.Machine
end

section
/-! PROOFS. The family 40_bit_unpacker: PUSH executes every whole code (O31), and the boundaries between chunks do not
matter (O46). -/

namespace Sys2Proof.Machine

/-! ## The width registers through one code (R21, R22) -/

/-- `n` and `codeSize` are in their ranges, so a code has at least 2 and at most `MAXW` bits (R70). -/
structure WidthsInRange (s : State) : Prop where
  nLow : 1 ≤ s.n.toNat
  nHigh : s.n.toNat ≤ s.maxw.bits - 1
  sizeLow : 1 ≤ s.codeSize.toNat
  sizeHigh : s.codeSize.toNat ≤ s.maxw.bits - 1

/-- The ranges are a matter of `MAXW`, `n` and `codeSize` only. -/
theorem WidthsInRange.congr {s t : State} (h : WidthsInRange s) (hm : t.maxw = s.maxw) (hn : t.n = s.n)
    (hc : t.codeSize = s.codeSize) : WidthsInRange t := by
  obtain ⟨h1, h2, h3, h4⟩ := h
  constructor <;> simp only [hm, hn, hc] <;> assumption

/-- The growth rule stops at the ceiling (R142). -/
theorem widthsInRange_extend {s : State} (v : Entry) (h : WidthsInRange s) : WidthsInRange (extend v s) := by
  obtain ⟨-, he⟩ | ⟨-, he⟩ := extend_cases v s <;> rw [he]
  · exact h
  · obtain ⟨hn, hn', hlow, hhigh⟩ := h
    have hsize : (addEntry v s).codeSize.toNat = _ := grownCodeSize_toNat (s.nextCode.toNat + 1) s
    refine ⟨hn, hn', ?_, ?_⟩ <;> rw [hsize]
    · split <;> omega
    · rw [addEntry_maxw]; split <;> omega

theorem widthsInRange_extendFromPrev {s : State} (v : Entry) (h : WidthsInRange s) :
    WidthsInRange (extendFromPrev v s) := by
  obtain ⟨-, he⟩ | ⟨p, -, he⟩ := extendFromPrev_cases v s <;> rw [he]
  · exact h
  · exact widthsInRange_extend _ h

/-- Executing a code keeps the widths in range: CLEAR restores `n`, the others extend once or leave the width. -/
theorem widthsInRange_runCode {s t : State} {c : Code} (h : WidthsInRange s) (ht : runCode c s = .next t) :
    WidthsInRange t := by
  obtain ⟨-, ⟨v, -, rfl⟩ | ⟨-, -, rfl⟩ | ⟨-, -, rfl⟩ | ⟨-, -, p, -, rfl⟩ | ⟨-, -, -, rfl⟩ | ⟨-, rfl⟩⟩ :=
    runCode_cases ht
  · -- KNOWN
    exact (widthsInRange_extendFromPrev (s := emit v s) v (h.congr rfl rfl rfl)).congr rfl rfl rfl
  · -- CLEAR
    exact ⟨h.nLow, h.nHigh, h.nLow, h.nHigh⟩
  · -- EOI
    exact h.congr rfl rfl rfl
  · -- KWKWK
    exact (widthsInRange_extend (s := emit _ s) _ (h.congr rfl rfl rfl)).congr rfl rfl rfl
  · -- SKIP
    exact h.congr rfl rfl rfl
  · -- BAD
    exact h.congr rfl rfl rfl

/-! ## The drain loop as the relation `Drains` (R102, R105) -/

/-- With the widths in range an iteration of the drain loop completes and takes at least 2 bits (R70, R104). -/
theorem takeAndRun_of_widthsInRange {s : State} (h : WidthsInRange s) (hw : codeWaiting s = true) :
    ∃ t, takeAndRun s = .next t ∧ WidthsInRange t ∧ t.bitCnt.toNat + 2 ≤ s.bitCnt.toNat := by
  obtain ⟨hr, hcnt⟩ := codeWaiting_iff.1 hw
  have hlow := h.sizeLow
  have hwidth : readWidth s ≤ s.maxw.bits := by
    have := h.sizeHigh
    have := s.maxw.bits_pos
    unfold readWidth; omega
  obtain ⟨t, ht⟩ := runCode_completes (s := dropCode (readWidth s) s) (frontCode (readWidth s) s) hr
  refine ⟨t, takeAndRun_eq_next.2 ⟨hwidth, ht⟩, widthsInRange_runCode (s := dropCode _ s) (h.congr rfl rfl rfl) ht, ?_⟩
  obtain ⟨-, -, -, hc⟩ | ⟨-, -, hc⟩ := runCode_mode_cases ht <;> rw [hc]
  · rw [dropCode_bitCnt_toNat]; unfold readWidth; omega
  · simp only [BitVec.toNat_ofNat]; omega

/-- An iteration of the drain loop executes one more code in the sense of `Drains`: taking the code off the accumulator
does not change its class. -/
theorem drains_of_takeAndRun {k : Nat} {s t u : State} (hw : codeWaiting s = true) (ht : takeAndRun s = .next t)
    (hd : Drains k t u) : Drains (k + 1) s u := by
  obtain ⟨hr, hcnt⟩ := codeWaiting_iff.1 hw
  have hcode := (takeAndRun_eq_next.1 ht).2
  rw [runCode_eq_exec] at hcode
  exact .take k s t u hr hcnt hcode hd

/-- The drain loop executes every whole code, each of at least 2 bits. -/
theorem drain_drains {fuel : Nat} {s : State} (h : WidthsInRange s) (hf : s.bitCnt.toNat ≤ fuel) :
    ∃ k u, 2 * k ≤ s.bitCnt.toNat ∧ Drains k s u ∧ drain fuel s = .next u := by
  induction fuel generalizing s with
  | zero =>
    refine ⟨0, s, Nat.zero_le _, .stop s ?_, rfl⟩
    rintro ⟨-, hcnt⟩
    omega
  | succ fuel ih =>
    by_cases hw : codeWaiting s = true
    · obtain ⟨t, ht, hrange, hcnt⟩ := takeAndRun_of_widthsInRange h hw
      obtain ⟨k, u, hk, hd, hu⟩ := ih hrange (by omega)
      exact ⟨k + 1, u, by omega, drains_of_takeAndRun hw ht hd, by rw [drain_take hw, ht]; exact hu⟩
    · exact ⟨0, s, Nat.zero_le _, .stop s (mt codeWaiting_iff.2 hw), drain_stop (eq_false_of_ne_true hw)⟩

/-- A PUSH in `RUN` executes every whole code: at most half as many as the `MAXW + 7` bits that can be held (R105). -/
theorem pushRun_drains {s : State} (b : Byte) (h : WidthsInRange s) (hcnt : s.bitCnt.toNat ≤ s.maxw.bits - 1)
    (hbuf : s.bitBuf.toNat < 2 ^ s.bitCnt.toNat) :
    ∃ k u, k ≤ (s.maxw.bits + 7) / 2 ∧ Drains k (accumulate b (beginCommand s)) u ∧
      pushRun b s = .next (respondPush u) := by
  have hacc : (accumulate b (beginCommand s)).bitCnt.toNat = s.bitCnt.toNat + 8 :=
    accumulate_bitCnt_toNat (s := beginCommand s) b hcnt
  obtain ⟨k, u, hk, hd, hu⟩ := drain_drains (s := accumulate b (beginCommand s)) (h.congr rfl rfl rfl) hacc.le
  have hpos := s.maxw.bits_pos
  exact ⟨k, u, by omega, hd, pushRun_eq_next.2 ⟨accumulatorValid_iff.2 ⟨hcnt, hbuf⟩, u, hu, rfl⟩⟩

/-! ## PUSH outside `RUN` (R102, R91) -/

theorem execPush_of_done {s : State} (b : Byte) (hm : s.mode = .done) :
    execPush b s = .next (respond .ok (beginCommand s)) := by
  unfold execPush; rw [hm]

theorem execPush_of_stopped {s : State} (b : Byte) (hm : s.mode = .uninit ∨ s.mode = .error) :
    execPush b s = .next (refuse s) := by
  unfold execPush
  rcases hm with hm | hm <;> rw [hm]

/-! ## DECODE chunk by chunk (R107) -/

/-- A PUSH that does not answer `OK` leaves a mode in which every further PUSH is refused (R91, R188). -/
theorem execPush_stopped {b : Byte} {s t : State} (h : execPush b s = .next t) (hresp : t.resp ≠ some .ok) :
    t.mode = .uninit ∨ t.mode = .error := by
  obtain ⟨-, hp⟩ | ⟨-, rfl⟩ | ⟨hm, rfl⟩ := execPush_cases h
  · obtain ⟨-, u, -, rfl⟩ := pushRun_eq_next.1 hp
    rw [respondPush_resp] at hresp
    by_cases hm : u.mode = .error
    · exact .inr hm
    · exact absurd (by rw [if_neg hm]) hresp
  · exact absurd rfl hresp
  · exact hm

/-- A refused command changes nothing but how `OUT` is divided and the response (R190). -/
theorem settled_refuse (s : State) : settled (refuse s) = settled s := by
  simp [settled, outStream, refuse, respond, beginCommand]

/-- Where PUSH is refused a chunk changes nothing (up to the ports): it stops at its first byte. -/
theorem decodeChunk_of_stopped {s : State} (bytes : List Byte) (hm : s.mode = .uninit ∨ s.mode = .error) :
    mapNext settled (decodeChunk bytes s) = .next (settled s) := by
  cases bytes with
  | nil => rfl
  | cons b bs =>
    have hstop : decodeChunk (b :: bs) s = .next (refuse s) := by
      rw [decodeChunk, execPush_of_stopped b hm]; rfl
    rw [hstop, ← settled_refuse s]
    rfl

/-! ## The obligations -/

/-- Settles O31: along the drain loop the widths stay in range, so each of its iterations takes at least 2 of the at most
`MAXW + 7` held bits and completes. -/
theorem pushExecutesEveryWholeCode : Obligations.PushExecutesEveryWholeCode := by
  intro s b
  refine ⟨fun hr hn hn' hlow hhigh hcnt hbuf => ?_, execPush_of_done b, execPush_of_stopped b⟩
  obtain ⟨k, u, hk, hd, hu⟩ := pushRun_drains b ⟨hn, hn', hlow, hhigh⟩ hcnt hbuf
  exact ⟨k, u, hk, hd, (execPush_of_run b hr).trans hu⟩

/-- Settles O46: by induction over the first chunk; where it stops early the second one is refused, and a refusal shows
only on the ports. -/
theorem chunkBoundariesDoNotMatter : Obligations.ChunkBoundariesDoNotMatter := by
  intro x y s
  induction x generalizing s with
  | nil => rfl
  | cons b bs ih =>
    rw [List.cons_append, decodeChunk, decodeChunk]
    cases hb : execPush b s with
    | fault r => rfl
    | refused r => rfl
    | next t =>
      simp only [andThen_next]
      by_cases hok : t.resp = some .ok
      · rw [if_pos hok, if_pos hok]; exact ih t
      · rw [if_neg hok, if_neg hok]
        exact (decodeChunk_of_stopped y (execPush_stopped hb hok)).symm

end Sys2Proof.Machine
end

section
/-! PROOFS. The family 41_lifecycle_commands: what INIT (O23, O24), RESET (O26) and DEINIT (O28) leave, and that RESET and
INIT done twice leave what they leave once (O27). -/

namespace Sys2Proof.Machine

/-! ## INIT (R120) -/

/-- The roots of a legal `n` all have a slot, so a session just started reads `[low8(c)]` at every root code. -/
theorem dictRead_startSession {n : BitVec 4} (order : Order) (s : State) (hn : n.toNat ≤ s.maxw.bits) (c : Nat) :
    dictRead (startSession order n s) c = if c < 2 ^ n.toNat then some (Entry.single (low8 c)) else none := by
  have hroom : 2 ^ n.toNat ≤ s.maxw.slots := Nat.pow_le_pow_right (by omega) hn
  rw [dictRead, startSession_dict, startSession_maxw, Memory.read_roots]
  simp only [and_iff_left_of_imp fun hc : c < 2 ^ n.toNat => hc.trans_le hroom]

/-! ## RESET (R123) -/

theorem execReset_of_session {s : State} (x : BitVec 8) (hm : s.mode = .run ∨ s.mode = .done) :
    execReset x s = .next (respond .ok (resetProc (beginCommand s))) := by
  unfold execReset
  rcases hm with hm | hm <;> rw [hm]

theorem execReset_of_stopped {s : State} (x : BitVec 8) (hm : s.mode = .uninit ∨ s.mode = .error) :
    execReset x s = .next (refuse s) := by
  unfold execReset
  rcases hm with hm | hm <;> rw [hm]

/-! ## Done twice (R125) -/

/-- `Reset()` writes functions of `n`, `clearCode` and `MAXW`, and keeps these. -/
theorem resetProc_resetProc (s : State) : resetProc (resetProc s) = resetProc s := rfl

/-- `startSession` writes functions of its operands and `MAXW`, and keeps `MAXW` and the ports. -/
theorem startSession_startSession (order : Order) (n : BitVec 4) (s : State) :
    startSession order n (startSession order n s) = startSession order n s := rfl

theorem startSession_respond (order : Order) (n : BitVec 4) (r : Resp) (s : State) :
    startSession order n (respond r s) = respond r (startSession order n s) := rfl

/-- After a command that delivered no bytes the next one finds its `out` empty already. -/
theorem beginCommand_of_cmdOut_nil {s : State} (h : s.cmdOut = []) : beginCommand s = s := by
  unfold beginCommand
  rw [h, List.append_nil, ← h]

/-- A command that answers `r` and whose effect `f` is idempotent and looks at no response, done twice: what it leaves it
leaves again. -/
theorem respond_twice {f : State → State} {r : Resp} (s : State) (hf : ∀ u, f (f u) = f u)
    (hresp : ∀ u, f (respond r u) = respond r (f u)) (hout : ∀ u, (f u).cmdOut = u.cmdOut) :
    respond r (f (beginCommand (respond r (f (beginCommand s))))) = respond r (f (beginCommand s)) := by
  have hsilent : (respond r (f (beginCommand s))).cmdOut = [] := hout (beginCommand s)
  rw [beginCommand_of_cmdOut_nil hsilent, hresp, hf]
  rfl

theorem refuse_refuse (s : State) : refuse (refuse s) = refuse s :=
  respond_twice (f := id) s (fun _ => rfl) (fun _ => rfl) (fun _ => rfl)

theorem execReset_twice (x y : BitVec 8) {s t : State} (h : execReset x s = .next t) : execReset y t = .next t := by
  obtain ⟨hm, rfl⟩ | ⟨hm, rfl⟩ := execReset_cases x h
  · rw [execReset_of_session y, respond_twice s resetProc_resetProc (fun _ => rfl) resetProc_cmdOut]
    exact hm
  · rw [execReset_of_stopped y, refuse_refuse]
    exact hm

theorem execInit_twice {n : BitVec 4} (order : Order) {s t : State} (h1 : 1 ≤ n.toNat) (h2 : n.toNat < s.maxw.bits)
    (h : execInit 0#3 order n s = .next t) : execInit 0#3 order n t = .next t := by
  rw [execInit_legal order s h1 h2] at h
  cases h
  rw [execInit_legal order _ h1, respond_twice s (startSession_startSession order n) (startSession_respond order n .ok)
    (startSession_cmdOut order n)]
  exact h2

/-! ## The obligations -/

/-- Settles O23: a legal INIT answers `startSession`, whose codes fit their registers and whose roots fit the slots. -/
theorem initStartsAFreshSession : Obligations.InitStartsAFreshSession := by
  intro s order n h1 h2
  have hpos := s.maxw.bits_pos
  obtain ⟨hclear, hend, hnext⟩ := startSession_codes_toNat order (s := beginCommand s) h2
  have hroots := dictRead_startSession order (beginCommand s) (h2.trans (Nat.sub_le _ _))
  exact ⟨_, execInit_legal order s h1 (by omega), hroots, hclear, hend, hnext, rfl⟩

/-- Settles O26: RESET by mode; where it is accepted the dictionary reads as `Reset()` leaves it. -/
theorem resetCommandRestoresTheDictionary : Obligations.ResetCommandRestoresTheDictionary := by
  intro s x
  refine ⟨fun hm => ?_, execReset_of_stopped x⟩
  exact ⟨_, execReset_of_session x hm, dictRead_resetProc (beginCommand s), rfl⟩

/-- Settles O27: `Reset()` and the start of a session are idempotent, and so are the commands that run them. -/
theorem resetAndInitAreIdempotent : Obligations.ResetAndInitAreIdempotent := by
  refine ⟨resetProc_resetProc, fun s t x y => execReset_twice x y, fun s t order n h1 h2 => ?_⟩
  have hpos := s.maxw.bits_pos
  exact execInit_twice order h1 (by omega)

/-- Settles O24: the three illegal operands are those of `execInit_illegal`; a refusal writes the ports only. -/
theorem initWithIllegalOperandIsRefused : Obligations.InitWithIllegalOperandIsRefused :=
  fun s _ order _ => execInit_illegal order s

/-- Settles O28: DEINIT answers the teardown in every mode, and an empty dictionary reads nothing at any slot. -/
theorem deinitTearsTheSessionDown : Obligations.DeinitTearsTheSessionDown := by
  intro s x
  have hempty : ∀ c, dictRead (tearDown (beginCommand s)) c = none := by
    intro c
    rw [dictRead, tearDown_dict, Memory.read, Memory.lookup, ite_self]
  exact ⟨_, rfl, hempty, rfl, rfl, rfl, rfl, rfl, rfl, rfl⟩

end Sys2Proof.Machine
end

section
/-! PROOFS. The family 42_decode_codes: Extend (O19, O20), how a code is classified and run (O18, O17), and what each class
of code does (O11, O12, O13, O14, O15, O16, O22). -/

namespace Sys2Proof.Machine

/-! ## Extend and the growth of the width (R142, R143) -/

/-- What Extend leaves in the dictionary, the free slot and the width counter while there is room (R142). -/
theorem extend_room {s : State} (v : Entry) (hroom : s.nextCode.toNat < s.maxw.slots) :
    dictRead (extend v s) s.nextCode.toNat = some v ∧
    (∀ a, a ≠ s.nextCode.toNat → dictRead (extend v s) a = dictRead s a) ∧
    (extend v s).nextCode.toNat = s.nextCode.toNat + 1 ∧
    (extend v s).codeSize.toNat = (grownCodeSize (s.nextCode.toNat + 1) s).toNat := by
  rw [extend_of_room v hroom]
  exact ⟨dictRead_addEntry_same v hroom, fun _ => dictRead_addEntry_other v, addEntry_nextCode_toNat v hroom, rfl⟩

/-- Where a session stands that was reset and then extended `k` times, up to the first growth of its width: the free slot
and the width counter as functions of `k` (R143 (d)). -/
structure FirstWidth (s : State) (k : Nat) : Prop where
  nLow : 2 ≤ s.n.toNat
  nHigh : s.n.toNat ≤ s.maxw.bits - 2
  next : s.nextCode.toNat = 2 ^ s.n.toNat + 2 + k
  size : s.codeSize.toNat = if k = 2 ^ s.n.toNat - 2 then s.n.toNat + 1 else s.n.toNat

theorem firstWidth_resetProc {s : State} (h2 : 2 ≤ s.n.toNat) (hn : s.n.toNat ≤ s.maxw.bits - 2)
    (hc : s.clearCode.toNat = 2 ^ s.n.toNat) : FirstWidth (resetProc s) 0 := by
  have hfour : 2 ^ 2 ≤ 2 ^ s.n.toNat := Nat.pow_le_pow_right (by norm_num) h2
  refine ⟨h2, hn, ?_, ?_⟩
  · rw [resetProc_nextCode, hc]
    exact codeReg_pow_add (by omega) le_rfl
  · rw [resetProc_n, if_neg (by omega), resetProc_codeSize]

/-- One more extension: below `2^n - 2` of them the width counter is `n`, and it grows when the free slot reaches
`2^(n+1) = (2^n + 2) + (2^n - 2)`, which is a slot. -/
theorem firstWidth_extend {s : State} {k : Nat} (v : Entry) (h : FirstWidth s k) (hk : k + 1 ≤ 2 ^ s.n.toNat - 2) :
    FirstWidth (extend v s) (k + 1) := by
  obtain ⟨h2, hn, hnext, hsize⟩ := h
  have hbits := s.maxw.bits_ge
  have hslots : 2 ^ (s.n.toNat + 2) ≤ s.maxw.slots := Nat.pow_le_pow_right (by norm_num) (by omega)
  rw [Nat.pow_add] at hslots
  obtain ⟨-, -, hnext', hsize'⟩ := extend_room v (by omega : s.nextCode.toNat < s.maxw.slots)
  rw [if_neg (by omega)] at hsize
  rw [grownCodeSize_toNat, hnext, hsize, Nat.pow_succ] at hsize'
  refine ⟨by rwa [extend_n], by rwa [extend_n, extend_maxw], by rw [hnext', hnext, extend_n, Nat.add_assoc], ?_⟩
  rw [hsize', extend_n]
  congr 1
  simp only [eq_iff_iff]
  omega

theorem foldl_extend_n (vs : List Entry) (s : State) : (vs.foldl (fun t v => extend v t) s).n = s.n := by
  induction vs generalizing s with
  | nil => rfl
  | cons v vs ih => exact (ih _).trans (extend_n v s)

theorem firstWidth_foldl {s : State} {k : Nat} (vs : List Entry) (h : FirstWidth s k)
    (hk : k + vs.length ≤ 2 ^ s.n.toNat - 2) :
    FirstWidth (vs.foldl (fun t v => extend v t) s) (k + vs.length) := by
  induction vs generalizing s k with
  | nil => exact h
  | cons v vs ih =>
    rw [List.length_cons, Nat.add_comm vs.length, ← Nat.add_assoc] at hk ⊢
    exact ih (firstWidth_extend v h (by omega)) (by rwa [extend_n])

/-! ## The class of a code, and running it (R76, R140) -/

/-- The instruction a code of this class is. -/
def instrOfClass (c : Code) : CodeClass → Instr
  | .known => .known c
  | .clear => .clear
  | .eoi => .eoi
  | .kwkwk => .kwkwk c
  | .skip => .skip c
  | .bad => .bad c

theorem runCode_of_classOf {s : State} {c : Code} {k : CodeClass} (hk : classOf s c = k) :
    runCode c s = exec (instrOfClass c k) s := by
  unfold runCode
  rw [hk]
  cases k <;> rfl

theorem inRun_of_not_run {s : State} {f : State → Answer} (h : s.mode ≠ .run) : inRun s f = .fault .codeOutsideRun :=
  if_neg h

theorem asClass_of_other {k : CodeClass} {c : Code} {s : State} {f : State → Answer} (h : classOf s c ≠ k) :
    asClass k c s f = .fault .notOfThisClass := if_neg h

/-- KNOWN, whose class is tested by the lookup itself, on a code that is not in the dictionary. -/
theorem execKnown_of_not_inDict {s : State} {c : Code} (hr : s.mode = .run) (hc : inDict s c.toNat = false) :
    execKnown c s = .fault .notOfThisClass := by
  unfold execKnown
  rw [inRun_of_run hr]
  simp only [inDict_false_iff.1 hc]

/-! ## The codes that emit (R144, R147) -/

theorem extendFromPrev_of_prevValue {s : State} {p : Entry} (v : Entry) (hp : prevValue s = some p) :
    extendFromPrev v s = extend (p.snoc v.first) s := by
  unfold extendFromPrev
  rw [hp]

/-- KNOWN does not extend where `prevCode` is not resolvable or the dictionary is full (R144, R142). -/
theorem extendFromPrev_eq_self {s : State} (v : Entry) (h : ¬Resolvable s ∨ s.maxw.slots ≤ s.nextCode.toNat) :
    extendFromPrev v s = s := by
  obtain ⟨-, he⟩ | ⟨p, hp, he⟩ := extendFromPrev_cases v s <;> rw [he]
  exact extend_of_full _ (h.resolve_left (not_not_intro (resolvable_iff.2 ⟨p, hp⟩)))

/-- What a code that emits and extends leaves unchanged. -/
theorem frame_of_emit_extend {s t : State} {c : Code} {v w : Entry} (ht : t = setPrevCode c (extend w (emit v s))) :
    t = { s with
      dict := t.dict, nextCode := t.nextCode, codeSize := t.codeSize, prevCode := t.prevCode, cmdOut := t.cmdOut } := by
  obtain ⟨-, he⟩ | ⟨-, he⟩ := extend_cases w (emit v s) <;> rw [ht, he] <;> rfl

theorem frame_of_emit_extendFromPrev {s t : State} {c : Code} {v : Entry}
    (ht : t = setPrevCode c (extendFromPrev v (emit v s))) :
    t = { s with
      dict := t.dict, nextCode := t.nextCode, codeSize := t.codeSize, prevCode := t.prevCode, cmdOut := t.cmdOut } := by
  obtain ⟨-, he⟩ | ⟨p, -, he⟩ := extendFromPrev_cases v (emit v s) <;> rw [he] at ht
  · rw [ht]; rfl
  · exact frame_of_emit_extend ht

/-! ## The fault and the PUSH (R149, R186) -/

/-- `ERROR` is entered by the BadCode fault only, which drops the held bits. -/
def ErrorIsBadCode (s : State) : Prop := s.mode = .error → s.err = .badCode ∧ s.bitCnt = 0#5

theorem errorIsBadCode_takeAndRun {s t : State} (ht : takeAndRun s = .next t) : ErrorIsBadCode t := by
  intro hm
  obtain ⟨hr, -⟩ | ⟨⟨hd, -⟩ | ⟨-, he⟩, -, hc⟩ := runCode_mode_cases (takeAndRun_eq_next.1 ht).2
  · rw [hr] at hm; cases hm
  · rw [hd] at hm; cases hm
  · exact ⟨he, hc⟩

theorem errorIsBadCode_drain {fuel : Nat} {s t : State} (hs : ErrorIsBadCode s) (h : drain fuel s = .next t) :
    ErrorIsBadCode t :=
  drain_keeps (fun _ _ _ _ => errorIsBadCode_takeAndRun) hs h

theorem respondPush_fault_iff {s : State} : (respondPush s).resp = some .fault ↔ s.mode = .error := by
  rw [respondPush_resp]
  split <;> simp_all

/-! ## The obligations -/

/-- Settles O11: KNOWN emits the entry, then extends from `prevCode` or leaves the dictionary as it is. -/
theorem knownEmitsAndExtends : Obligations.KnownEmitsAndExtends := by
  intro s c v hr hv
  refine ⟨_, execKnown_of_run hr hv, extendFromPrev_cmdOut v (emit v s), rfl, frame_of_emit_extendFromPrev rfl,
    fun q p hq hp hroom => ?_, fun hstay => ?_⟩
  · have hprev : prevValue (emit v s) = some p := prevValue_eq_some.2 ⟨q, hq, hp⟩
    rw [extendFromPrev_of_prevValue v hprev, ← grownCodeSize_toNat]
    exact extend_room (s := emit v s) _ hroom
  · rw [extendFromPrev_eq_self (s := emit v s) v hstay]
    exact ⟨rfl, rfl, rfl⟩

/-- Settles O14: KWKWK emits what it then writes at the free slot, the slot the code names. -/
theorem kwkwkLearnsTheEntryItNames : Obligations.KwkwkLearnsTheEntryItNames := by
  rintro s _ q p hr hunknown hq hp rfl hroom
  have hclass : classOf s s.nextCode = .kwkwk := classOf_kwkwk.2 ⟨hunknown, ⟨q, hq, inDict_iff.2 ⟨p, hp⟩⟩, rfl⟩
  have hprev : prevValue s = some p := prevValue_eq_some.2 ⟨q, hq, hp⟩
  obtain ⟨hsame, hother, hnext, hsize⟩ := extend_room (s := emit (p.snoc p.first) s) (p.snoc p.first) hroom
  exact ⟨_, execKwkwk_eq_next.2 ⟨hr, hclass, p, hprev, rfl⟩, extend_cmdOut _ (emit _ s), rfl, hsame, hother, hnext,
    hsize.trans (grownCodeSize_toNat _ s), frame_of_emit_extend rfl⟩

/-- Settles O12: CLEAR is `Reset()` with the clear code recorded. -/
theorem clearRestoresTheRoots : Obligations.ClearRestoresTheRoots :=
  fun s hr => ⟨_, execClear_eq_next.2 ⟨hr, rfl⟩, dictRead_resetProc s, rfl⟩

/-- Settles O13: EOI writes `MODE` and the accumulator; in `DONE` a PUSH is answered without looking at its byte. -/
theorem eoiEndsTheSession : Obligations.EoiEndsTheSession :=
  ⟨fun _ hr => execEoi_eq_next.2 ⟨hr, rfl⟩, fun _ b => execPush_of_done b⟩

/-- Settles O15: an unknown code without a resolvable `prevCode` is of the class SKIP, whatever `nextCode` is. -/
theorem skipOnlyRecordsTheCode : Obligations.SkipOnlyRecordsTheCode :=
  fun _ _ hr hunknown hres => execSkip_eq_next.2 ⟨hr, classOf_skip.2 ⟨hunknown, hres⟩, rfl⟩

/-- Settles O16: BAD takes the fault; along the drain loop of a PUSH nothing else enters `ERROR`, and the response shows
the mode it ends in. -/
theorem badCodeFaultIsTaken : Obligations.BadCodeFaultIsTaken := by
  refine ⟨fun s c hr hunknown hres hc => execBad_eq_next.2 ⟨hr, classOf_bad.2 ⟨hunknown, hres, hc⟩, rfl⟩,
    fun s t b hr ht => ?_⟩
  obtain ⟨-, u, hu, rfl⟩ := pushRun_eq_next.1 ((execPush_of_run b hr).symm.trans ht)
  have hstart : ErrorIsBadCode (accumulate b (beginCommand s)) := fun hm => by
    rw [accumulate_mode, beginCommand_mode, hr] at hm; cases hm
  have hend : ErrorIsBadCode u := errorIsBadCode_drain hstart hu
  exact ⟨respondPush_fault_iff, hend⟩

/-- Settles O17: the six meanings ask for `RUN` first, then for their class. -/
theorem codesStopWhereNoCodeOfTheClassRuns : Obligations.CodesStopWhereNoCodeOfTheClassRuns := by
  refine ⟨fun s i hi hr => ?_, fun s c hr => ⟨execKnown_of_not_inDict hr, fun h => ?_, fun h => ?_, fun h => ?_⟩⟩
  · cases i with
    | known | clear | eoi | kwkwk | skip | bad =>
      simp only [exec, execKnown, execClear, execEoi, execKwkwk, execSkip, execBad, inRun_of_not_run hr]
    | init | reset | push | deinit | rsvd0 | rsvd5 | rsvd6 | rsvd7 => cases hi
  · rw [exec, execKwkwk, inRun_of_run hr, asClass_of_other (mt classOf_kwkwk.1 h)]
  · rw [exec, execSkip, inRun_of_run hr, asClass_of_other (mt classOf_skip.1 h)]
  · rw [exec, execBad, inRun_of_run hr, asClass_of_other (mt classOf_bad.1 h)]

/-- Settles O18: each clause is the condition of one class, and every class completes in `RUN`. -/
theorem everyCodeRunsAsItsClass : Obligations.EveryCodeRunsAsItsClass :=
  fun s c =>
    ⟨fun hin => runCode_of_classOf (classify_known.2 hin),
      fun hout hclear => runCode_of_classOf (classify_clear.2 ⟨hout, hclear⟩),
      fun hout hclear heoi => runCode_of_classOf (classify_eoi.2 ⟨hout, hclear, heoi⟩),
      fun hunknown hres => runCode_of_classOf (classOf_skip.2 ⟨hunknown, hres⟩),
      fun hunknown hres hc => runCode_of_classOf (classOf_kwkwk.2 ⟨hunknown, hres, hc⟩),
      fun hunknown hres hc => runCode_of_classOf (classOf_bad.2 ⟨hunknown, hres, hc⟩),
      runCode_eq_exec c s, runCode_completes c⟩

/-- Settles O19: with room Extend is `addEntry`, and without room it is nothing. -/
theorem extendGrowsTheWidthAtTheBoundary : Obligations.ExtendGrowsTheWidthAtTheBoundary := by
  refine fun s v => ⟨fun hroom => ?_, extend_of_full v⟩
  obtain ⟨hsame, hother, hnext, hsize⟩ := extend_room v hroom
  refine ⟨hsame, hother, hnext, hsize.trans (grownCodeSize_toNat _ s), ?_⟩
  rw [extend_of_room v hroom]
  rfl

/-- Settles O20: by induction over the extensions, the free slot counts them and the width grows when it reaches
`2^(n+1)`. -/
theorem widthGrowsAfterTheCountedExtensions : Obligations.WidthGrowsAfterTheCountedExtensions := by
  intro s vs h2 hn hc hlen
  have h := firstWidth_foldl vs (firstWidth_resetProc h2 hn hc) (by rwa [Nat.zero_add])
  have hsize := h.size
  rwa [Nat.zero_add, foldl_extend_n] at hsize

/-- Settles O22: the invariant holds a root's low byte at its slot, so the code is KNOWN and emits it. -/
theorem rootCodesEmitTheirLowByte : Obligations.RootCodesEmitTheirLowByte := by
  intro s c hinv hr hc
  have hroot := (hinv.session (by simp [hr])).rootValue c.toNat hc
  have hknown : classOf s c = .known := classify_known.2 (inDict_iff.2 ⟨_, hroot⟩)
  exact ⟨_, (runCode_of_classOf hknown).trans (execKnown_of_run hr hroot), extendFromPrev_cmdOut _ (emit _ s)⟩

end Sys2Proof.Machine
end

section
/-! PROOFS. The family 60_exceptions: which commands are refused and what a refusal leaves (O30), how the commands change
`MODE` (O33), and the ways out of `ERROR` (O34). -/

namespace Sys2Proof.Machine

/-! ## The refused commands (R185, R190) -/

/-- One half of R185: the list is refused, in every state, whatever the command's operand. -/
theorem exec_of_refusedIn {s : State} {i : Instr} (h : refusedIn s i) : exec i s = .next (refuse s) := by
  cases i with
  | known | clear | eoi | kwkwk | skip | bad | deinit => exact h.elim
  | init zero order n => exact execInit_illegal order s h
  | reset x => exact execReset_of_stopped x h
  | push b => exact execPush_of_stopped b h
  | rsvd0 | rsvd5 | rsvd6 | rsvd7 => rfl

/-- In `ERROR` the list holds every command but INIT and DEINIT (R188). -/
theorem refusedIn_of_error {s : State} {i : Instr} (hm : s.mode = .error) (hi : i.isCommand = true)
    (hinit : ∀ zero order n, i ≠ .init zero order n) (hdeinit : ∀ x, i ≠ .deinit x) : refusedIn s i := by
  cases i with
  | known | clear | eoi | kwkwk | skip | bad => cases hi
  | init zero order n => exact absurd rfl (hinit zero order n)
  | deinit x => exact absurd rfl (hdeinit x)
  | reset | push => exact .inr hm
  | rsvd0 | rsvd5 | rsvd6 | rsvd7 => trivial

/-! ## The accepted commands -/

theorem execInit_accepted {zero : BitVec 3} {order : Order} {n : BitVec 4} {s t : State}
    (h : execInit zero order n s = .next t) (hacc : ¬refusedIn s (.init zero order n)) :
    t = respond .ok (startSession order n (beginCommand s)) := by
  obtain ⟨-, -, -, ht⟩ | ⟨hbad, -⟩ := execInit_cases h
  · exact ht
  · exact absurd hbad hacc

theorem execReset_accepted {x : BitVec 8} {s t : State} (h : execReset x s = .next t)
    (hacc : ¬refusedIn s (.reset x)) : t = respond .ok (resetProc (beginCommand s)) := by
  obtain ⟨-, ht⟩ | ⟨hm, -⟩ := execReset_cases x h
  · exact ht
  · exact absurd hm hacc

/-- What the codes of a PUSH can leave in `MODE`: no code leads to `UNINIT` (R196). -/
def InSession (s : State) : Prop := s.mode = .run ∨ s.mode = .done ∨ s.mode = .error

theorem inSession_takeAndRun {s t : State} (h : takeAndRun s = .next t) : InSession t := by
  obtain ⟨hr, -⟩ | ⟨⟨hd, -⟩ | ⟨he, -⟩, -⟩ := runCode_mode_cases (takeAndRun_eq_next.1 h).2
  · exact .inl hr
  · exact .inr (.inl hd)
  · exact .inr (.inr he)

/-- A PUSH in `RUN` stays in the session, by induction along its drain loop. -/
theorem inSession_pushRun {b : Byte} {s t : State} (hr : s.mode = .run) (h : pushRun b s = .next t) : InSession t := by
  obtain ⟨-, u, hu, rfl⟩ := pushRun_eq_next.1 h
  have hstart : InSession (accumulate b (beginCommand s)) := .inl hr
  exact drain_keeps (P := InSession) (t := u) (fun _ _ _ _ => inSession_takeAndRun) hstart hu

theorem respondPush_resp_ne_refused (s : State) : (respondPush s).resp ≠ some .refused := by
  rw [respondPush_resp]
  split <;> simp

/-- A PUSH outside the list answers `OK` or `FAULT` (R102). -/
theorem execPush_accepted_resp {b : Byte} {s t : State} (h : execPush b s = .next t)
    (hacc : ¬refusedIn s (.push b)) : t.resp ≠ some .refused := by
  obtain ⟨-, hp⟩ | ⟨-, rfl⟩ | ⟨hm, -⟩ := execPush_cases h
  · obtain ⟨-, u, -, rfl⟩ := pushRun_eq_next.1 hp
    exact respondPush_resp_ne_refused u
  · simp
  · exact absurd hm hacc

/-- R185, "Nothing else is refused". -/
theorem exec_accepted_resp {i : Instr} {s t : State} (hi : i.isCommand = true) (h : exec i s = .next t)
    (hacc : ¬refusedIn s i) : t.resp ≠ some .refused := by
  cases i with
  | known | clear | eoi | kwkwk | skip | bad => cases hi
  | init zero order n => simp [execInit_accepted h hacc]
  | reset x => simp [execReset_accepted h hacc]
  | push b => exact execPush_accepted_resp h hacc
  | deinit x => cases h; simp
  | rsvd0 | rsvd5 | rsvd6 | rsvd7 => exact absurd trivial hacc

/-! ## The obligations -/

/-- Settles O30: the commands of the list answer `refuse`, which writes the ports only, and no other command answers
`REFUSED`. -/
theorem exactlyTheListedCommandsAreRefused : Obligations.ExactlyTheListedCommandsAreRefused := by
  intro s t i hi ht
  have hrefuse : refusedIn s i → t = refuse s := fun h => by
    rw [exec_of_refusedIn h] at ht
    cases ht
    rfl
  refine ⟨⟨fun hresp => ?_, fun h => ?_⟩, hrefuse⟩
  · by_contra hacc
    exact exec_accepted_resp hi ht hacc hresp
  · rw [hrefuse h, refuse_resp]

/-- Settles O33: a refusal keeps `MODE`; each accepted command leaves the mode of what it answers, and a PUSH in `RUN`
stays in the session along its drain loop. -/
theorem modeTransitionsFollowTheTable : Obligations.ModeTransitionsFollowTheTable := by
  intro s t i hi ht
  refine ⟨fun h => ?refused, fun hacc => ⟨?init, ?deinit, ?reset, ?push⟩⟩
  case refused =>
    rw [exec_of_refusedIn h] at ht
    cases ht
    exact refuse_mode s
  case init =>
    rintro zero order n rfl
    rw [execInit_accepted ht hacc, respond_mode, startSession_mode]
  case deinit =>
    rintro x rfl
    cases ht
    exact tearDown_mode (beginCommand s)
  case reset =>
    rintro x rfl
    rw [execReset_accepted ht hacc, respond_mode, resetProc_mode, beginCommand_mode]
  case push =>
    rintro b rfl
    refine ⟨fun hd => ?_, fun hr => inSession_pushRun hr ((execPush_of_run b hr).symm.trans ht)⟩
    cases (execPush_of_done b hd).symm.trans ht
    exact hd

/-- Settles O34: in `ERROR` every command but INIT and DEINIT is on the list of R185; INIT starts a session and DEINIT
tears it down as in every mode. -/
theorem errorIsStickyUntilInitOrDeinit : Obligations.ErrorIsStickyUntilInitOrDeinit := by
  refine fun s hm => ⟨fun i hi hinit hdeinit => exec_of_refusedIn (refusedIn_of_error hm hi hinit hdeinit),
    fun order n h1 h2 => ?_, fun x => ⟨_, rfl, rfl, rfl⟩⟩
  have hpos := s.maxw.bits_pos
  exact ⟨_, execInit_legal order s h1 (by omega), rfl, rfl⟩

end Sys2Proof.Machine
end

section
/-! PROOFS. The family 70_reset_and_hazards: power-on and the reset input (O3), and what the commands before INIT look
at (O45). -/

namespace Sys2Proof.Machine

/-! ## The commands in `UNINIT` (R91, R210) -/

/-- Whether a command is refused depends on `MAXW` and `MODE` alone (R185). -/
theorem refusedIn_congr {s₁ s₂ : State} (hmax : s₁.maxw = s₂.maxw) (hmode : s₁.mode = s₂.mode) (i : Instr) :
    refusedIn s₁ i ↔ refusedIn s₂ i := by
  cases i <;> simp only [refusedIn, hmax, hmode]

/-- In `UNINIT` a command is on the list of R185, or is DEINIT, or is an INIT with legal operands (R91). -/
theorem command_cases_of_uninit {s : State} {i : Instr} (hm : s.mode = .uninit) (hi : i.isCommand = true) :
    refusedIn s i ∨ (∃ x, i = .deinit x) ∨
    ∃ order n, i = .init 0#3 order n ∧ 1 ≤ n.toNat ∧ n.toNat < s.maxw.bits := by
  cases i with
  | known | clear | eoi | kwkwk | skip | bad => cases hi
  | init zero order n =>
    by_cases href : refusedIn s (.init zero order n)
    · exact .inl href
    · simp only [refusedIn, ne_eq, not_or, not_not, not_le] at href
      obtain ⟨hpos, hlt, rfl⟩ := href
      exact .inr (.inr ⟨order, n, rfl, by omega, hlt⟩)
  | deinit x => exact .inr (.inl ⟨x, rfl⟩)
  | reset | push => exact .inl (.inl hm)
  | rsvd0 | rsvd5 | rsvd6 | rsvd7 => exact .inl trivial

/-! ## The obligations -/

/-- Settles O45: a refusal and the teardown leave `UNINIT` and answer without a look at the other fields, and the session
an INIT starts is a function of `MAXW` and the operand (`sameCore_startSession`). -/
theorem unspecifiedFieldsAreNeverRead : Obligations.UnspecifiedFieldsAreNeverRead := by
  intro s₁ s₂ i hmax hm₁ hm₂ herr hi
  obtain href | ⟨x, rfl⟩ | ⟨order, n, rfl, h1, h2⟩ := command_cases_of_uninit hm₁ hi
  · have href₂ := (refusedIn_congr hmax (hm₁.trans hm₂.symm) i).1 href
    exact ⟨_, _, exec_of_refusedIn href, exec_of_refusedIn href₂, hm₁.trans hm₂.symm, herr, rfl, rfl, rfl,
      fun hne => absurd hm₁ hne⟩
  · exact ⟨_, _, rfl, rfl, rfl, rfl, rfl, rfl, rfl, fun hne => absurd rfl hne⟩
  · exact ⟨_, _, execInit_legal order s₁ h1 h2, execInit_legal order s₂ h1 (hmax ▸ h2), rfl, rfl, rfl, rfl, rfl,
      fun _ => sameCore_startSession order n hmax⟩

/-- Settles O3: the power-on state by its fields, and the reset input by the step that serves it. -/
theorem powerOnLeavesUninit : Obligations.PowerOnLeavesUninit :=
  ⟨fun _ => ⟨rfl, rfl, rfl⟩, rfl, fun s rest h =>
    ⟨powerOn { s with inputs := rest }, step_resetInput h, rfl, rfl, rfl, rfl, rfl, rfl⟩⟩

end Sys2Proof.Machine
end
